-- ==== Sys2Proof/Word.lean ====
section
/-! DEFINITION. The byte type and its plainest arithmetic (00_scope.md R10). -/

namespace Sys2Proof

/-- `Byte`: an unsigned 8-bit value; bit 0 is the least significant (00_scope.md R10). -/
abbrev Byte := BitVec 8

end Sys2Proof
end

