-- ==== Sys2Proof/Config.lean ====
section
/-! DEFINITION. The one value the spec leaves open: the EEPROM content that nothing supplies.

The parameters of 00_scope.md R8 that have a decided value stand in Sys2Proof/Machine/Params.lean. -/

namespace Sys2Proof.Config

/-- EE_INIT (00_scope.md R8, 70_reset_and_hazards.md R241): byte a of the EEPROM image where no preinit buffer
supplies it. The spec leaves it OPEN, free per byte: a free value (log entry 4), so it has no body. -/
opaque eeInit : Nat → Byte

end Sys2Proof.Config
end

