-- ==== Sys2Proof/Machine/Params.lean ====
section
/-! DEFINITION. The parameters of 00_scope.md R8 at the values the spec decides, and the register map of
10_state.md R24 (log entry 6). They stand under Machine/ so that a later repair may mend a value. -/

namespace Sys2Proof.Param

/-- IO_BASE: absolute offset of the first I/O register (R8, D1). -/
def ioBase : Nat := 0x20
/-- IO_END: last offset of the I/O sub-range, inclusive (R8, D2). -/
def ioEnd : Nat := 0x5F
/-- GR_START: first general register (R8, D2). -/
def grStart : Nat := 0x00
/-- GR_END: last general register, inclusive (R8, D2). -/
def grEnd : Nat := 0x1F
/-- XIO_START: first extended I/O register (R8, D2). -/
def xioStart : Nat := 0x60
/-- XIO_END: last extended I/O register, inclusive (R8, D2). -/
def xioEnd : Nat := 0xFF
/-- MEM_START: first byte of general memory (R8, D2). -/
def memStart : Nat := 0x100
/-- MEM_SIZE: the length of the address space in bytes (R8, D2). -/
def memSize : Nat := 0x900
/-- MEM_END: last byte of general memory, inclusive (R8). -/
def memEnd : Nat := memSize - 1
/-- EE_SIZE: the length of the EEPROM image in bytes, a power of two (R8, D8). -/
def eeSize : Nat := 1024

end Sys2Proof.Param

namespace Sys2Proof.Rel

/-! Offsets relative to IO_BASE, as the source states them (10_state.md R24, "source offset"). -/

def pinb : Nat := 0x03
def ddrb : Nat := 0x04
def portb : Nat := 0x05
def pinc : Nat := 0x06
def ddrc : Nat := 0x07
def portc : Nat := 0x08
def pind : Nat := 0x09
def ddrd : Nat := 0x0A
def portd : Nat := 0x0B
def eecr : Nat := 0x1F
def eedr : Nat := 0x20
def eearl : Nat := 0x21
def eearh : Nat := 0x22
def adcl : Nat := 0x58
def adch : Nat := 0x59
def adcsra : Nat := 0x5A
def admux : Nat := 0x5C

end Sys2Proof.Rel

namespace Sys2Proof.Reg

/-! Absolute offsets (10_state.md R24, "absolute"). -/

def pinb : Nat := Param.ioBase + Rel.pinb
def ddrb : Nat := Param.ioBase + Rel.ddrb
def portb : Nat := Param.ioBase + Rel.portb
def pinc : Nat := Param.ioBase + Rel.pinc
def ddrc : Nat := Param.ioBase + Rel.ddrc
def portc : Nat := Param.ioBase + Rel.portc
def pind : Nat := Param.ioBase + Rel.pind
def ddrd : Nat := Param.ioBase + Rel.ddrd
def portd : Nat := Param.ioBase + Rel.portd
def tifr0 : Nat := 0x35
def eecr : Nat := Param.ioBase + Rel.eecr
def eedr : Nat := Param.ioBase + Rel.eedr
def eearl : Nat := Param.ioBase + Rel.eearl
def eearh : Nat := Param.ioBase + Rel.eearh
def tccr0b : Nat := 0x45
def tcnt0 : Nat := 0x46
def adcl : Nat := Param.ioBase + Rel.adcl
def adch : Nat := Param.ioBase + Rel.adch
def adcsra : Nat := Param.ioBase + Rel.adcsra
def admux : Nat := Param.ioBase + Rel.admux
def ucsr0a : Nat := 0xC0
def ucsr0b : Nat := 0xC1
def udr0 : Nat := 0xC6
def dac : Nat := 0xFE

/-- The offsets whose WRITE selects an update: the targets of the multiplexer (30_encoding.md R76). -/
def dispatching : List Nat :=
  [pinb, portb, pinc, portc, pind, portd, adcsra, eecr, dac, udr0]

end Sys2Proof.Reg

namespace Sys2Proof.Bit

/-! Bit positions (00_scope.md R8, D4 to D7). -/

/-- BIT_TOV in TIFR0. -/
def tov : Nat := 0
/-- BIT_EERE in EECR. -/
def eere : Nat := 0
/-- BIT_EEWE in EECR. -/
def eewe : Nat := 1
/-- BIT_EEMWE in EECR. -/
def eemwe : Nat := 2
/-- BIT_ADSC in ADCSRA. -/
def adsc : Nat := 6
/-- BIT_ADIF in ADCSRA. -/
def adif : Nat := 4
/-- BIT_ADLAR in ADMUX. -/
def adlar : Nat := 5
/-- BIT_RXEN in UCSR0B. -/
def rxen : Nat := 4
/-- BIT_TXEN in UCSR0B. -/
def txen : Nat := 3
/-- BIT_RXC in UCSR0A. -/
def rxc : Nat := 7
/-- BIT_TXC in UCSR0A. -/
def txc : Nat := 6
/-- BIT_UDRE in UCSR0A. -/
def udre : Nat := 5

/-- `1 << i` as a byte (00_scope.md R14). -/
def mask (i : Nat) : Byte := 1#8 <<< i

/-- The clock-select field of TCCR0B, bits [2:0] (10_state.md R25). -/
def csMask : Byte := 7#8

end Sys2Proof.Bit

namespace Sys2Proof.Machine

/-- What byte a of M holds after reset (10_state.md R49): UCSR0A holds `1 << BIT_UDRE`, every other byte 0x00.
It is also what an offset that mem does not list reads as (log entry 5). -/
def resetByte (a : Nat) : Byte :=
  if a = Reg.ucsr0a then Bit.mask Bit.udre else 0#8

/-- The named sub-ranges of the address space (10_state.md R23). -/
inductive Region where
  | generalRegisters
  | io
  | extendedIo
  | generalMemory
  deriving DecidableEq, Repr

/-- The first and last offset of a sub-range, both inclusive; the executor reads these to set up its stack pointer
(10_state.md R23; 70_reset_and_hazards.md R243). -/
def regionBounds : Region → Nat × Nat
  | .generalRegisters => (Param.grStart, Param.grEnd)
  | .io => (Param.ioBase, Param.ioEnd)
  | .extendedIo => (Param.xioStart, Param.xioEnd)
  | .generalMemory => (Param.memStart, Param.memEnd)

/-- The offset lies in the sub-range. -/
def Region.holds (r : Region) (a : Nat) : Bool :=
  (regionBounds r).1 ≤ a && a ≤ (regionBounds r).2

end Sys2Proof.Machine
end

