-- ==== Sys2Proof/Syntax.lean ====
section
/-! DEFINITION. The block's "instructions" (00_scope.md R3): one constructor per row of spec/opcode_table.json.

The TXN32 rows are the transactions of 30_encoding.md R70 and R71, the only way into the block. The REG8 rows are the
register commands of R77 to R80: each names a branch of an update, selected by the byte a control register holds as
the update reads it (R85). A command's argument is what its update hands to the branch (log entry 15). -/

namespace Sys2Proof

/-- One constructor per row of spec/opcode_table.json. -/
inductive Instr where
  /-- READ a (R91). -/
  | read (a : Nat)
  /-- WRITE PINB, d (R92, R191). -/
  | writePinb (d : Byte)
  /-- WRITE PORTB, d (R92, R191). -/
  | writePortb (d : Byte)
  /-- WRITE PINC, d (R92, R191). -/
  | writePinc (d : Byte)
  /-- WRITE PORTC, d (R92, R191). -/
  | writePortc (d : Byte)
  /-- WRITE PIND, d (R92, R191). -/
  | writePind (d : Byte)
  /-- WRITE PORTD, d (R92, R191). -/
  | writePortd (d : Byte)
  /-- WRITE ADCSRA, d (R92, R150). -/
  | writeAdcsra (d : Byte)
  /-- WRITE EECR, d (R92, R131). -/
  | writeEecr (d : Byte)
  /-- WRITE DAC, d (R92, R95). -/
  | writeDac (d : Byte)
  /-- WRITE UDR0, d (R92, R170). -/
  | writeUdr0 (d : Byte)
  /-- WRITE a, d at an offset no row above names (R92). -/
  | write (a : Nat) (d : Byte)
  /-- STEP n (R110). -/
  | step (n : Nat)
  /-- RXINJ b (R172). -/
  | rxinj (b : Byte)
  /-- SETAIN v, v the word's side operand (R154). -/
  | setain (v : Rat)
  /-- DACOUT (R96). -/
  | dacout
  /-- The branch of STEP n under CS = 0: stopped (R111). -/
  | tccr0bCs0 (n : Nat)
  /-- The branch of STEP n under CS = 1: divider 1 (R110). -/
  | tccr0bCs1 (n : Nat)
  /-- The branch of STEP n under CS = 2: divider 8 (R110). -/
  | tccr0bCs2 (n : Nat)
  /-- The branch of STEP n under CS = 3: divider 64 (R110). -/
  | tccr0bCs3 (n : Nat)
  /-- The branch of STEP n under CS = 4: divider 256 (R110). -/
  | tccr0bCs4 (n : Nat)
  /-- The branch of STEP n under CS = 5: divider 1024 (R110). -/
  | tccr0bCs5 (n : Nat)
  /-- The branch of STEP n under CS = 6: external clock, inert (R111). -/
  | tccr0bCs6 (n : Nat)
  /-- The branch of STEP n under CS = 7: external clock, inert (R111). -/
  | tccr0bCs7 (n : Nat)
  /-- The read branch of EepromUpdate (R132). -/
  | eecrRead
  /-- The write branch of EepromUpdate with the gate set (R133). -/
  | eecrWrite
  /-- The write branch of EepromUpdate without the gate (R133, R135). -/
  | eecrWriteDropped
  /-- EepromUpdate with the gate alone set: it stays armed (R138). -/
  | eecrGateOnly
  /-- AdcUpdate with the start bit set: one conversion (R150). -/
  | adcsraStart
  /-- AdcUpdate with the start bit clear: nothing (R150). -/
  | adcsraNostart
  /-- The left-adjusted layout of result r (R152). -/
  | admuxLeft (r : BitVec 10)
  /-- The right-adjusted layout of result r (R152). -/
  | admuxRight (r : BitVec 10)
  /-- The transmit hook for byte new with TXEN set (R170). -/
  | ucsr0bTxen (new : Byte)
  /-- The transmit hook for byte new with TXEN clear (R170). -/
  | ucsr0bTxoff (new : Byte)
  /-- The receive of byte b with RXEN set (R172). -/
  | ucsr0bRxen (b : Byte)
  /-- The receive of byte b with RXEN clear: dropped (R172). -/
  | ucsr0bRxoff (b : Byte)
  deriving DecidableEq, Repr

/-- The six points where an update reads a control register and decodes it (30_encoding.md R77 to R80), each with
what the update hands to the branch it selects. -/
inductive CommandPoint where
  /-- STEP n reads TCCR0B (R77). -/
  | clockSelect (n : Nat)
  /-- EepromUpdate reads EECR (R78). -/
  | eeprom
  /-- AdcUpdate reads ADCSRA (R79). -/
  | adcStart
  /-- A conversion with result r reads ADMUX (R79). -/
  | adcLayout (r : BitVec 10)
  /-- The transmit hook for byte new reads UCSR0B (R80). -/
  | transmit (new : Byte)
  /-- RXINJ b reads UCSR0B (R80). -/
  | receive (b : Byte)
  deriving DecidableEq, Repr

/-- The code of an instruction: a transaction word with its side operand (30_encoding.md R71), or the byte of a
control register at the point where an update reads it (R85, REG8 rows). -/
inductive Code where
  | txn (w : BitVec 32) (side : Rat)
  | reg8 (p : CommandPoint) (b : Byte)
  deriving DecidableEq, Repr

/-- The instruction is a transaction (a TXN32 row), not a register command (a REG8 row). -/
def Instr.isTransaction : Instr → Bool
  | .read _ | .writePinb _ | .writePortb _ | .writePinc _ | .writePortc _ | .writePind _ | .writePortd _
  | .writeAdcsra _ | .writeEecr _ | .writeDac _ | .writeUdr0 _ | .write _ _ | .step _ | .rxinj _ | .setain _
  | .dacout => true
  | .tccr0bCs0 _ | .tccr0bCs1 _ | .tccr0bCs2 _ | .tccr0bCs3 _ | .tccr0bCs4 _ | .tccr0bCs5 _ | .tccr0bCs6 _
  | .tccr0bCs7 _ | .eecrRead | .eecrWrite | .eecrWriteDropped | .eecrGateOnly | .adcsraStart | .adcsraNostart
  | .admuxLeft _ | .admuxRight _ | .ucsr0bTxen _ | .ucsr0bTxoff _ | .ucsr0bRxen _ | .ucsr0bRxoff _ => false

end Sys2Proof
end

