-- ==== Sys2Proof/Machine/State.lean ====
section
/-! DEFINITION. The whole state of the block as plain data (10_state.md, head of the file, and R22, R39 to R44), its
fault and refusals, and the state after reset (R49). -/

namespace Sys2Proof.Machine

/-- The three GPIO ports (10_state.md R36). -/
inductive Port where
  | B
  | C
  | D
  deriving DecidableEq, Repr

/-- The events the block emits (10_state.md R43). -/
inductive Event where
  /-- The notification of every MemWrite; internal, the dispatcher is its one subscriber. -/
  | memChange (offset : Nat) (old new : Byte)
  /-- A port's fan-out, port level. -/
  | portChange (port : Port) (old new : Byte)
  /-- A port's fan-out, one pin, named by its one-bit mask. -/
  | pinChange (port : Port) (mask : Byte) (old new : Bool)
  /-- A transmitted byte. -/
  | uartTx (byte : Byte)
  deriving DecidableEq, Repr

/-- What a transaction returns to its issuer: only READ and DACOUT return anything (40_bus_dispatch.md R91, R96). -/
inductive Answer where
  /-- READ returned `value` for `offset`. -/
  | read (offset : Nat) (value : Byte)
  /-- DACOUT returned the byte and its voltage in volts. -/
  | dacOut (byte : Byte) (voltage : Rat)
  deriving DecidableEq, Repr

/-- A transaction an agent has issued and the block has not yet taken (log entry 2). -/
inductive Request where
  /-- A transaction word with its side operand, which only SETAIN takes (30_encoding.md R71). -/
  | word (w : BitVec 32) (side : Rat)
  /-- A line of assembler, which can spell a STEP of any size (30_encoding.md R74). -/
  | line (i : Instr)
  /-- The second half of SETB a, i: WRITE a, x | (1 << i), x being what the executor's last READ returned (R75). -/
  | setBack (a : Nat) (i : Fin 8)
  /-- The second half of CLRB a, i: WRITE a, x & ~(1 << i) (R75). -/
  | clearBack (a : Nat) (i : Fin 8)
  deriving DecidableEq, Repr

/-- Why the machine stops with a fault. -/
inductive Fault where
  /-- OutOfBounds(a), the block's only fault (60_exceptions.md R210). The READ or WRITE at a >= MEM_SIZE itself ends in
  a next state that records a in the fault mark; every transaction meaning and `step`, in a state with the mark set,
  answer this fault: such a state takes no further transaction (10_state.md R44; 60_exceptions.md R214). Safe: the run
  stops where the spec stops it (log entry 1). -/
  | outOfBounds (offset : Nat)
  deriving DecidableEq, Repr

/-- Why the machine gives no meaning to what it was handed. -/
inductive Refusal where
  /-- An arm of exec whose instruction has no meaning yet; no arm is left so. Safe. -/
  | notModelled (mnemonic : String)
  /-- `step` raises it for a word that spells no transaction: the decoder refuses the word (30_encoding.md R73). Safe. -/
  | reservedWord (w : BitVec 32)
  /-- `step` raises it for an assembler line that is no transaction: a register command is only ever selected inside a
  transaction (30_encoding.md R70). Safe (log entry 15). -/
  | notATransaction
  /-- `step` raises it for the second half of SETB or CLRB at an offset no READ has answered for: R75 issues the READ
  first, so such a request is none the executor makes. Safe (log entry 19). -/
  | noReadAnswered (offset : Nat)
  /-- Construction raises it where EE_SIZE is no power of two in 1..65536 (70_reset_and_hazards.md R241). Safe. -/
  | badEepromSize (size : Nat)
  /-- Construction raises it for a preinit buffer longer than EE_SIZE (70_reset_and_hazards.md R241). Safe. -/
  | preinitTooLong (length : Nat)
  deriving DecidableEq, Repr

/-- The whole state of the block (10_state.md): M, E, acc, ain, dac, trace, fault, and two fields of the model's own
that hold what passes the block's interfaces: the answers given and the transactions waiting. -/
structure State where
  /-- The address space M (R22): the bytes that differ from `resetByte`, by rising offset. -/
  mem : List Host.Cell
  /-- The EEPROM image E (R39): the bytes a preinit buffer supplied or an EEPROM write stored, by rising address; any
  other byte a holds the free value `Config.eeInit a` (log entry 4). -/
  eeprom : List Host.Cell
  /-- The prescaler accumulator (R40). -/
  acc : Nat
  /-- The analog input, an exact rational (R41). -/
  ain : Rat
  /-- The DAC output (R42). -/
  dac : Byte
  /-- The event trace, first event first (R43). -/
  trace : List Event
  /-- The fault mark: empty, or the offset of the first out-of-bounds access (R44). -/
  fault : Option Nat
  /-- The model's own: what READ and DACOUT returned, first answer first (R43; log entry 3). -/
  answers : List Answer
  /-- The model's own: the transactions issued and not yet taken, first issued first (20_memory.md R58; log entry 2). -/
  inbox : List Request
  deriving DecidableEq, Repr

/-- The state after reset, with no preinit buffer (10_state.md R49; 70_reset_and_hazards.md R240). -/
def State.reset : State where
  mem := []
  eeprom := []
  acc := 0
  ain := 0
  dac := 0
  trace := []
  fault := none
  answers := []
  inbox := []

/-- The outcome of a transaction. -/
abbrev Result := Host.Outcome State Fault Refusal

end Sys2Proof.Machine
end

