-- ==== Sys2Proof/Machine/Ops.lean ====
section
/-! DEFINITION. The named operations over M, E, the trace and the fault mark (00_scope.md R11, R12). -/

namespace Sys2Proof.Machine

/-! Lists of (address, byte) pairs by rising address. -/

/-- The byte listed at address a. -/
def findCell : List Host.Cell → Nat → Option Byte
  | [], _ => none
  | (b, v) :: m, a => if b = a then some v else findCell m a

/-- List v at address a, in its place by address, instead of what stood there. -/
def putCell : List Host.Cell → Nat → Byte → List Host.Cell
  | [], a, v => [(a, v)]
  | (b, w) :: m, a, v =>
    if a < b then (a, v) :: (b, w) :: m
    else if a = b then (a, v) :: m
    else (b, w) :: putCell m a v

/-- List nothing at address a. -/
def dropCell : List Host.Cell → Nat → List Host.Cell
  | [], _ => []
  | (b, w) :: m, a => if b = a then dropCell m a else (b, w) :: dropCell m a

/-- The addresses rise strictly, from lo on, and stay below hi. -/
def rising (lo hi : Nat) : List Host.Cell → Bool
  | [] => true
  | (b, _) :: m => lo ≤ b && b < hi && rising (b + 1) hi m

/-! M (10_state.md R22): an offset not listed holds its reset byte, and no listed byte equals it. -/

/-- `M[a]` over the list alone. -/
def memRead (m : List Host.Cell) (a : Nat) : Byte :=
  (findCell m a).getD (resetByte a)

/-- `M[a] <- v` over the list alone; a byte written back to its reset value is no longer listed. -/
def memStore (m : List Host.Cell) (a : Nat) (v : Byte) : List Host.Cell :=
  if v = resetByte a then dropCell m a else putCell m a v

/-- The canonical form of mem: rising offsets inside the buffer, no entry equal to what an unlisted offset reads as. -/
def Memory.wf (m : List Host.Cell) : Bool :=
  rising 0 Param.memSize m && m.all fun c => c.2 != resetByte c.1

/-! E (10_state.md R39): an address not listed holds the free value `Config.eeInit`. -/

/-- `E[a]` over the list alone. -/
def eeRead (e : List Host.Cell) (a : Nat) : Byte :=
  (findCell e a).getD (Config.eeInit a)

/-- The canonical form of eeprom: rising addresses inside the image. -/
def Eeprom.wf (e : List Host.Cell) : Bool :=
  rising 0 Param.eeSize e

/-! The state. -/

/-- `M[a]`, read live (00_scope.md R11; 10_state.md R48). -/
def State.byteAt (s : State) (a : Nat) : Byte := memRead s.mem a

/-- `E[a]` (00_scope.md R11). -/
def State.eeByteAt (s : State) (a : Nat) : Byte := eeRead s.eeprom a

/-- `E[a] <- v`: no notification, E is not in M (10_state.md R39). -/
def State.eeStore (s : State) (a : Nat) (v : Byte) : State :=
  { s with eeprom := putCell s.eeprom a v }

/-- `emit e` (00_scope.md R12). -/
def State.emit (s : State) (e : Event) : State :=
  { s with trace := s.trace ++ [e] }

/-- Emit several events in order. -/
def State.emitAll (s : State) (es : List Event) : State :=
  { s with trace := s.trace ++ es }

/-- Return a value to the issuer of the transaction (log entry 3). -/
def State.answer (s : State) (x : Answer) : State :=
  { s with answers := s.answers ++ [x] }

/-- The store and the notification of one MemWrite: `M[a] <- v`, then `emit MemChange(a, old, v)`
(40_bus_dispatch.md R92, R93). -/
def State.record (s : State) (a : Nat) (v : Byte) : State :=
  { s with mem := memStore s.mem a v, trace := s.trace ++ [.memChange a (s.byteAt a) v] }

/-- `raise OutOfBounds(a)`: the one exception entry of the block. The mark records the offset and nothing else changes
(60_exceptions.md R210). There is no return from it (R215, R216). -/
def State.raiseOutOfBounds (s : State) (a : Nat) : State :=
  { s with fault := some a }

/-- A transaction runs only in a state whose fault mark is empty (10_state.md R44; 60_exceptions.md R214). -/
def ifRunning (s t : State) : Result :=
  match s.fault with
  | none => .next t
  | some a => .fault (.outOfBounds a)

/-- `MemWrite(a, 1, v)` as an update calls it: an offset, a byte, the state (00_scope.md R12). -/
abbrev MemWriter := Nat → Byte → State → State

end Sys2Proof.Machine
end

