-- ==== Sys2Proof/Machine/Flags.lean ====
section
/-! DEFINITION. Bits of a register and every flag computation (00_scope.md R10, R14; 10_state.md R45). -/

namespace Sys2Proof.Machine

/-- `v[i]` (00_scope.md R10). -/
def bitOf (v : Byte) (i : Nat) : Bool := v.getLsbD i

/-- `bit(v, mask)`: `(v & mask) != 0` (00_scope.md R10). -/
def bitIn (v mask : Byte) : Bool := v &&& mask != 0

/-- `v | (1 << i)`. -/
def withBit (v : Byte) (i : Nat) : Byte := v ||| Bit.mask i

/-- `v & ~(1 << i)`. -/
def withoutBit (v : Byte) (i : Nat) : Byte := v &&& ~~~(Bit.mask i)

/-- `setb(r, i)`: one live read and one MemWrite (00_scope.md R14). -/
def setb (mw : MemWriter) (r i : Nat) (s : State) : State :=
  mw r (withBit (s.byteAt r) i) s

/-- `clrb(r, i)`: one live read and one MemWrite (00_scope.md R14). -/
def clrb (mw : MemWriter) (r i : Nat) (s : State) : State :=
  mw r (withoutBit (s.byteAt r) i) s

/-- `clrb(r, i, j)`: both bits in one MemWrite (00_scope.md R14). -/
def clrb2 (mw : MemWriter) (r i j : Nat) (s : State) : State :=
  mw r (s.byteAt r &&& ~~~(Bit.mask i ||| Bit.mask j)) s

/-- UCSR0A after a transmit: TXC and UDRE set at once, the other bits kept (44_uart.md R171). -/
def txFlags (v : Byte) : Byte := v ||| Bit.mask Bit.txc ||| Bit.mask Bit.udre

/-- ADCSRA after a conversion: ADIF set and ADSC clear, the other bits kept (43_adc.md R153). -/
def adcDone (v : Byte) : Byte := withoutBit (withBit v Bit.adif) Bit.adsc

end Sys2Proof.Machine
end

