-- ==== Sys2Proof/Machine/Operands.lean ====
section
/-! DEFINITION. Every assembled operand (30_encoding.md R81): the EEPROM address, the divider, the ADC result and its two
layouts, the pin masks and the DAC voltage. -/

namespace Sys2Proof.Machine

/-- The EEPROM address, re-derived live: `((EEARH << 8) | EEARL) & (EE_SIZE - 1)` (10_state.md R29). -/
def eepromAddr (s : State) : Nat :=
  ((((s.byteAt Reg.eearh).zeroExtend 16 <<< 8) ||| (s.byteAt Reg.eearl).zeroExtend 16)
    &&& BitVec.ofNat 16 (Param.eeSize - 1)).toNat

/-- `CS = TCCR0B[2:0]` (30_encoding.md R77). -/
def clockSelect (s : State) : Nat :=
  (s.byteAt Reg.tccr0b &&& Bit.csMask).toNat

/-- The divider of a clock select; none where STEP is inert (30_encoding.md R77). -/
def divider : Nat → Option Nat
  | 1 => some 1
  | 2 => some 8
  | 3 => some 64
  | 4 => some 256
  | 5 => some 1024
  | _ => none

/-- `min(max(v, 0), 5)` (43_adc.md R151). -/
def clampInput (v : Rat) : Rat :=
  if v < 0 then 0 else if 5 < v then 5 else v

/-- The nearest integer to n / d, a tie going to the even one (43_adc.md R151). -/
def roundHalfEven (n d : Nat) : Nat :=
  let k := n / d
  let r := n % d
  if 2 * r < d then k
  else if d < 2 * r then k + 1
  else if k % 2 = 0 then k
  else k + 1

/-- ADC_QUANT: `round_half_even(c * 1023 / 5)` with c the clamped input, in exact arithmetic (43_adc.md R151). With
c = p / q in lowest terms, c * 1023 / 5 = 1023 * p / (5 * q). -/
def adcQuant (v : Rat) : Nat :=
  roundHalfEven (1023 * (clampInput v).num.toNat) (5 * (clampInput v).den)

/-- The 10-bit result of a conversion of the live input (00_scope.md R8; 43_adc.md R150). -/
def adcResult (s : State) : BitVec 10 := BitVec.ofNat 10 (adcQuant s.ain)

/-- ADCL, left-adjusted: `(r << 6) & 0xFF` (43_adc.md R152). -/
def leftLow (r : BitVec 10) : Byte := (r.zeroExtend 16 <<< 6).truncate 8
/-- ADCH, left-adjusted: `r >> 2` (43_adc.md R152). -/
def leftHigh (r : BitVec 10) : Byte := (r >>> 2).truncate 8
/-- ADCL, right-adjusted: `r & 0xFF` (43_adc.md R152). -/
def rightLow (r : BitVec 10) : Byte := r.truncate 8
/-- ADCH, right-adjusted: `r >> 8` (43_adc.md R152). -/
def rightHigh (r : BitVec 10) : Byte := (r >>> 8).truncate 8

/-- PINS_p: the pin count of a port (45_gpio.md R190). -/
def pinCount : Port → Nat
  | .B => 8
  | .C => 7
  | .D => 8

/-- The masks of a port's pins, ascending (45_gpio.md R190, R192). -/
def pinMasks (p : Port) : List Byte := (List.range (pinCount p)).map Bit.mask

/-- The DAC voltage in volts, the exact rational `dac * 5 / 255` (40_bus_dispatch.md R96). -/
def dacVoltage (b : Byte) : Rat := mkRat (b.toNat * 5) 255

end Sys2Proof.Machine
end

