-- ==== Sys2Proof/Machine/Adc.lean ====
section
/-! DEFINITION. The ADC update (43_adc.md). `mw` is the MemWrite the update's own writes go through. -/

namespace Sys2Proof.Machine

/-- The left-adjusted layout of result r: ADCL, then ADCH (R150, R152). -/
def adcStoreLeft (mw : MemWriter) (r : BitVec 10) (s : State) : State :=
  mw Reg.adch (leftHigh r) (mw Reg.adcl (leftLow r) s)

/-- The right-adjusted layout of result r: ADCL, then ADCH (R150, R152). -/
def adcStoreRight (mw : MemWriter) (r : BitVec 10) (s : State) : State :=
  mw Reg.adch (rightHigh r) (mw Reg.adcl (rightLow r) s)

/-- The completion write: ADIF set and ADSC cleared in one write of the live ADCSRA (R153). -/
def adcComplete (mw : MemWriter) (s : State) : State :=
  mw Reg.adcsra (adcDone (s.byteAt Reg.adcsra)) s

/-- One conversion: quantize the live input, store the result in the layout ADMUX selects, complete (R150). -/
def adcConvert (mw : MemWriter) (s : State) : State :=
  let r := adcResult s
  let s := if bitOf (s.byteAt Reg.admux) Bit.adlar then adcStoreLeft mw r s else adcStoreRight mw r s
  adcComplete mw s

/-- `AdcUpdate()` (R150). -/
def adcUpdate (mw : MemWriter) (s : State) : State :=
  if bitOf (s.byteAt Reg.adcsra) Bit.adsc then adcConvert mw s else s

end Sys2Proof.Machine
end

