-- ==== Sys2Proof/Machine/Eeprom.lean ====
section
/-! DEFINITION. The EEPROM update (42_eeprom.md). `mw` is the MemWrite the update's own writes go through; its write of
EECR runs a nested update (R131). -/

namespace Sys2Proof.Machine

/-- The read branch: EEDR <- E[addr], then EERE cleared (R132). -/
def eepromRead (mw : MemWriter) (addr : Nat) (s : State) : State :=
  clrb mw Reg.eecr Bit.eere (mw Reg.eedr (s.eeByteAt addr) s)

/-- The write branch with the gate set: E[addr] <- EEDR, then EEWE and EEMWE cleared in one write (R133). -/
def eepromWrite (mw : MemWriter) (addr : Nat) (s : State) : State :=
  clrb2 mw Reg.eecr Bit.eewe Bit.eemwe (s.eeStore addr (s.byteAt Reg.eedr))

/-- The write branch with the gate clear: the write is dropped, EEWE alone is cleared (R133, R135). -/
def eepromWriteDropped (mw : MemWriter) (s : State) : State :=
  clrb mw Reg.eecr Bit.eewe s

/-- `EepromUpdate()`: the read branch, then the write branch, each testing EECR live (R131). -/
def eepromUpdate (mw : MemWriter) (s : State) : State :=
  let addr := eepromAddr s
  let s := if bitOf (s.byteAt Reg.eecr) Bit.eere then eepromRead mw addr s else s
  if bitOf (s.byteAt Reg.eecr) Bit.eewe then
    if bitOf (s.byteAt Reg.eecr) Bit.eemwe then eepromWrite mw addr s else eepromWriteDropped mw s
  else s

end Sys2Proof.Machine
end

