-- ==== Sys2Proof/Machine/Gpio.lean ====
section
/-! DEFINITION. The GPIO fan-out and the pin views (45_gpio.md). -/

namespace Sys2Proof.Machine

/-- The pin-level events of one fan-out: every pin of the port, changed or not, by ascending mask (R191, R192). -/
def pinEvents (p : Port) (old new : Byte) : List Event :=
  (pinMasks p).map fun mask => .pinChange p mask (bitIn old mask) (bitIn new mask)

/-- `PortFanout(p, old, new)`: the port event always, the pin events only where the byte changed (R191). -/
def portFanout (p : Port) (old new : Byte) (s : State) : State :=
  let s := s.emit (.portChange p old new)
  if old ≠ new then s.emitAll (pinEvents p old new) else s

/-- DDRp (10_state.md R36). -/
def ddrOf : Port → Nat
  | .B => Reg.ddrb
  | .C => Reg.ddrc
  | .D => Reg.ddrd

/-- PORTp (10_state.md R36). -/
def portOf : Port → Nat
  | .B => Reg.portb
  | .C => Reg.portc
  | .D => Reg.portd

/-- PINp (10_state.md R36). -/
def pinOf : Port → Nat
  | .B => Reg.pinb
  | .C => Reg.pinc
  | .D => Reg.pind

/-! The pin views, recomputed from the live registers (R194). -/

/-- `PinDirection(p, mask)` (R194). -/
def pinDirection (s : State) (p : Port) (mask : Byte) : Bool := bitIn (s.byteAt (ddrOf p)) mask
/-- `PinOutput(p, mask)` (R194). -/
def pinOutput (s : State) (p : Port) (mask : Byte) : Bool := bitIn (s.byteAt (portOf p)) mask
/-- `PinInput(p, mask)` (R194). -/
def pinInput (s : State) (p : Port) (mask : Byte) : Bool := bitIn (s.byteAt (pinOf p)) mask

end Sys2Proof.Machine
end

