-- ==== Sys2Proof/Machine/Uart.lean ====
section
/-! DEFINITION. The UART's transmit hook and receive (44_uart.md). -/

namespace Sys2Proof.Machine

/-- An enabled transmit: the byte event, then TXC and UDRE set by one write (R170, R171). -/
def uartSend (mw : MemWriter) (new : Byte) (s : State) : State :=
  let s := s.emit (.uartTx new)
  mw Reg.ucsr0a (txFlags (s.byteAt Reg.ucsr0a)) s

/-- `UartTransmit(new)`: nothing with TXEN clear (R170). -/
def uartTransmit (mw : MemWriter) (new : Byte) (s : State) : State :=
  if bitOf (s.byteAt Reg.ucsr0b) Bit.txen then uartSend mw new s else s

/-- An enabled receive: UDR0 <- b through MemWrite, hence through the transmit hook (R173), then RXC set (R172). -/
def uartAccept (mw : MemWriter) (b : Byte) (s : State) : State :=
  setb mw Reg.ucsr0a Bit.rxc (mw Reg.udr0 b s)

/-- `RXINJ(b)`: the byte is dropped with RXEN clear (R172). -/
def uartReceive (mw : MemWriter) (b : Byte) (s : State) : State :=
  if bitOf (s.byteAt Reg.ucsr0b) Bit.rxen then uartAccept mw b s else s

end Sys2Proof.Machine
end

