-- ==== Sys2Proof/Machine/Bus.lean ====
section
/-! DEFINITION. The dispatch multiplexer and MemWrite (40_bus_dispatch.md). -/

namespace Sys2Proof.Machine

/-- `DacLoad(new)` (R95). -/
def dacLoad (new : Byte) (s : State) : State := { s with dac := new }

/-- The GPIO group of the multiplexer, matched relative to IO_BASE for an offset in the I/O sub-range (R94, R76). -/
def dispatchGpio (off : Nat) (old new : Byte) (s : State) : State :=
  if Param.ioBase ≤ off ∧ off ≤ Param.ioEnd then
    let rel := off - Param.ioBase
    if rel = Rel.pinb ∨ rel = Rel.portb then portFanout .B old new s
    else if rel = Rel.pinc ∨ rel = Rel.portc then portFanout .C old new s
    else if rel = Rel.pind ∨ rel = Rel.portd then portFanout .D old new s
    else s
  else s

/-- The address group of the multiplexer, tested for every offset (R94). -/
def dispatchAddress (mw : MemWriter) (off : Nat) (new : Byte) (s : State) : State :=
  if off = Reg.adcsra then adcUpdate mw s
  else if off = Reg.eecr then eepromUpdate mw s
  else if off = Reg.dac then dacLoad new s
  else if off = Reg.udr0 then uartTransmit mw new s
  else s

/-- `Dispatch(off, old, new)` (R94). -/
def dispatch (mw : MemWriter) (off : Nat) (old new : Byte) (s : State) : State :=
  dispatchAddress mw off new (dispatchGpio off old new s)

/-- MemWrite with k levels of nested updates allowed (R92): bounds check, store, notification, dispatch; the update's
own writes run one level down. At level 0 a write dispatches nothing: R99 shows that no update runs that deep from
level `maxNesting`, which `Obligations.ThreeNestingLevelsSuffice` states (log entry 16). -/
def memWriteAt : Nat → MemWriter
  | 0 => fun a v s => if Param.memSize ≤ a then s.raiseOutOfBounds a else s.record a v
  | k + 1 => fun a v s =>
    if Param.memSize ≤ a then s.raiseOutOfBounds a
    else dispatch (memWriteAt k) a (s.byteAt a) v (s.record a v)

/-- The greatest nesting depth of updates (R99). -/
def maxNesting : Nat := 3

/-- `MemWrite(a, 1, v)` (R92): the WRITE transaction and every write of a transaction's own. -/
def memWrite : MemWriter := memWriteAt maxNesting

end Sys2Proof.Machine
end

