-- ==== Sys2Proof/Machine/Timer.lean ====
section
/-! DEFINITION. The timer prescaler and overflow engine (41_timer.md). -/

namespace Sys2Proof.Machine

/-- `Tick()`: one increment of the live counter; on a wrap, TCNT0 first and then TOV (R113). -/
def tick (s : State) : State :=
  let c := s.byteAt Reg.tcnt0
  if c = 255#8 then setb memWrite Reg.tifr0 Bit.tov (memWrite Reg.tcnt0 0#8 s)
  else memWrite Reg.tcnt0 (c + 1#8) s

/-- `repeat n times: Tick()` (R110). -/
def ticks : Nat → State → State
  | 0, s => s
  | n + 1, s => ticks n (tick s)

/-- A running STEP under divider div: accumulate, keep the remainder, tick the quotient (R110, R112). -/
def runTimer (div n : Nat) (s : State) : State :=
  let sum := s.acc + n
  if div ≤ sum then ticks (sum / div) { s with acc := sum % div } else { s with acc := sum }

/-- `STEP(n)`: inert where the clock select, read once at the start, gives no divider (R110, R111). -/
def timerStep (n : Nat) (s : State) : State :=
  match divider (clockSelect s) with
  | none => s
  | some div => runTimer div n s

end Sys2Proof.Machine
end

