-- ==== Sys2Proof/Machine/Commands.lean ====
section
/-! DEFINITION. The meaning of each register command (30_encoding.md R77 to R80, R85), one definition per REG8 row.

A command's branch runs where the live byte of its register selects its row, on what its update hands it; where the row
is not selected the branch does not run and nothing changes (log entry 15). The transactions run these same branches
through `timerStep`, `eepromUpdate`, `adcUpdate`, `uartTransmit` and `uartReceive`. -/

namespace Sys2Proof.Machine

/-- The branch of STEP n under clock select cs, taken where CS = cs (41_timer.md R110, R111). -/
def clockBranch (cs n : Nat) (s : State) : State :=
  if clockSelect s = cs then
    match divider cs with
    | none => s
    | some div => runTimer div n s
  else s

/-- TCCR0B.CS=0: stopped (41_timer.md R111). -/
def execTccr0bCs0 (n : Nat) (s : State) : Result := ifRunning s (clockBranch 0 n s)

/-- TCCR0B.CS=1: divider 1 (41_timer.md R110). -/
def execTccr0bCs1 (n : Nat) (s : State) : Result := ifRunning s (clockBranch 1 n s)

/-- TCCR0B.CS=2: divider 8 (41_timer.md R110). -/
def execTccr0bCs2 (n : Nat) (s : State) : Result := ifRunning s (clockBranch 2 n s)

/-- TCCR0B.CS=3: divider 64 (41_timer.md R110). -/
def execTccr0bCs3 (n : Nat) (s : State) : Result := ifRunning s (clockBranch 3 n s)

/-- TCCR0B.CS=4: divider 256 (41_timer.md R110). -/
def execTccr0bCs4 (n : Nat) (s : State) : Result := ifRunning s (clockBranch 4 n s)

/-- TCCR0B.CS=5: divider 1024 (41_timer.md R110). -/
def execTccr0bCs5 (n : Nat) (s : State) : Result := ifRunning s (clockBranch 5 n s)

/-- TCCR0B.CS=6: external clock, inert (41_timer.md R111). -/
def execTccr0bCs6 (n : Nat) (s : State) : Result := ifRunning s (clockBranch 6 n s)

/-- TCCR0B.CS=7: external clock, inert (41_timer.md R111). -/
def execTccr0bCs7 (n : Nat) (s : State) : Result := ifRunning s (clockBranch 7 n s)

/-- EECR.READ: the read branch, where EERE is set (42_eeprom.md R132). -/
def execEecrRead (s : State) : Result :=
  ifRunning s (if bitOf (s.byteAt Reg.eecr) Bit.eere then eepromRead memWrite (eepromAddr s) s else s)

/-- EECR.WRITE: the write branch, where EEWE and EEMWE are set (42_eeprom.md R133). -/
def execEecrWrite (s : State) : Result :=
  ifRunning s
    (if bitOf (s.byteAt Reg.eecr) Bit.eewe && bitOf (s.byteAt Reg.eecr) Bit.eemwe then
      eepromWrite memWrite (eepromAddr s) s
    else s)

/-- EECR.WRITE_DROPPED: the write branch, where EEWE is set and EEMWE clear (42_eeprom.md R133, R135). -/
def execEecrWriteDropped (s : State) : Result :=
  ifRunning s
    (if bitOf (s.byteAt Reg.eecr) Bit.eewe && !bitOf (s.byteAt Reg.eecr) Bit.eemwe then
      eepromWriteDropped memWrite s
    else s)

/-- EECR.GATE_ONLY: the gate stays armed and nothing else happens (42_eeprom.md R138). -/
def execEecrGateOnly (s : State) : Result := ifRunning s s

/-- ADCSRA.START: one conversion, where ADSC is set (43_adc.md R150). -/
def execAdcsraStart (s : State) : Result :=
  ifRunning s (if bitOf (s.byteAt Reg.adcsra) Bit.adsc then adcConvert memWrite s else s)

/-- ADCSRA.NOSTART: no conversion, nothing written (43_adc.md R150). -/
def execAdcsraNostart (s : State) : Result := ifRunning s s

/-- ADMUX.LEFT: the left-adjusted layout of r, where ADLAR is set (43_adc.md R152). -/
def execAdmuxLeft (r : BitVec 10) (s : State) : Result :=
  ifRunning s (if bitOf (s.byteAt Reg.admux) Bit.adlar then adcStoreLeft memWrite r s else s)

/-- ADMUX.RIGHT: the right-adjusted layout of r, where ADLAR is clear (43_adc.md R152). -/
def execAdmuxRight (r : BitVec 10) (s : State) : Result :=
  ifRunning s (if !bitOf (s.byteAt Reg.admux) Bit.adlar then adcStoreRight memWrite r s else s)

/-- UCSR0B.TXEN: the transmit of byte new, where TXEN is set (44_uart.md R170). -/
def execUcsr0bTxen (new : Byte) (s : State) : Result :=
  ifRunning s (if bitOf (s.byteAt Reg.ucsr0b) Bit.txen then uartSend memWrite new s else s)

/-- UCSR0B.TXOFF: no event and no flag, whatever the byte (44_uart.md R170). -/
def execUcsr0bTxoff (_new : Byte) (s : State) : Result := ifRunning s s

/-- UCSR0B.RXEN: the receive of byte b, where RXEN is set (44_uart.md R172). -/
def execUcsr0bRxen (b : Byte) (s : State) : Result :=
  ifRunning s (if bitOf (s.byteAt Reg.ucsr0b) Bit.rxen then uartAccept memWrite b s else s)

/-- UCSR0B.RXOFF: the byte is dropped, whatever it is (44_uart.md R172). -/
def execUcsr0bRxoff (_b : Byte) (s : State) : Result := ifRunning s s

end Sys2Proof.Machine
end

