-- ==== Sys2Proof/Machine/Transactions.lean ====
section
/-! DEFINITION. The meaning of each transaction (30_encoding.md R70), one definition per TXN32 row. -/

namespace Sys2Proof.Machine

/-- `READ(a)`: the fault out of bounds, else M[a] is returned and nothing changes (40_bus_dispatch.md R91). -/
def readByte (a : Nat) (s : State) : State :=
  if Param.memSize ≤ a then s.raiseOutOfBounds a else s.answer (.read a (s.byteAt a))

/-- READ a (40_bus_dispatch.md R91). -/
def execRead (a : Nat) (s : State) : Result := ifRunning s (readByte a s)

/-- WRITE PINB, d (40_bus_dispatch.md R92; 45_gpio.md R191). -/
def execWritePinb (d : Byte) (s : State) : Result := ifRunning s (memWrite Reg.pinb d s)

/-- WRITE PORTB, d (40_bus_dispatch.md R92; 45_gpio.md R191). -/
def execWritePortb (d : Byte) (s : State) : Result := ifRunning s (memWrite Reg.portb d s)

/-- WRITE PINC, d (40_bus_dispatch.md R92; 45_gpio.md R191). -/
def execWritePinc (d : Byte) (s : State) : Result := ifRunning s (memWrite Reg.pinc d s)

/-- WRITE PORTC, d (40_bus_dispatch.md R92; 45_gpio.md R191). -/
def execWritePortc (d : Byte) (s : State) : Result := ifRunning s (memWrite Reg.portc d s)

/-- WRITE PIND, d (40_bus_dispatch.md R92; 45_gpio.md R191). -/
def execWritePind (d : Byte) (s : State) : Result := ifRunning s (memWrite Reg.pind d s)

/-- WRITE PORTD, d (40_bus_dispatch.md R92; 45_gpio.md R191). -/
def execWritePortd (d : Byte) (s : State) : Result := ifRunning s (memWrite Reg.portd d s)

/-- WRITE ADCSRA, d (40_bus_dispatch.md R92; 43_adc.md R150). -/
def execWriteAdcsra (d : Byte) (s : State) : Result := ifRunning s (memWrite Reg.adcsra d s)

/-- WRITE EECR, d (40_bus_dispatch.md R92; 42_eeprom.md R131). -/
def execWriteEecr (d : Byte) (s : State) : Result := ifRunning s (memWrite Reg.eecr d s)

/-- WRITE DAC, d (40_bus_dispatch.md R92, R95). -/
def execWriteDac (d : Byte) (s : State) : Result := ifRunning s (memWrite Reg.dac d s)

/-- WRITE UDR0, d (40_bus_dispatch.md R92; 44_uart.md R170). -/
def execWriteUdr0 (d : Byte) (s : State) : Result := ifRunning s (memWrite Reg.udr0 d s)

/-- WRITE a, d (40_bus_dispatch.md R92). -/
def execWrite (a : Nat) (d : Byte) (s : State) : Result := ifRunning s (memWrite a d s)

/-- STEP n (41_timer.md R110). -/
def execStep (n : Nat) (s : State) : Result := ifRunning s (timerStep n s)

/-- RXINJ b (44_uart.md R172). -/
def execRxinj (b : Byte) (s : State) : Result := ifRunning s (uartReceive memWrite b s)

/-- SETAIN v: no conversion starts and no event is emitted (43_adc.md R154). -/
def execSetain (v : Rat) (s : State) : Result := ifRunning s { s with ain := v }

/-- DACOUT: the byte and its voltage are returned and nothing changes (40_bus_dispatch.md R96). -/
def execDacout (s : State) : Result := ifRunning s (s.answer (.dacOut s.dac (dacVoltage s.dac)))

end Sys2Proof.Machine
end

