-- ==== Sys2Proof/Machine/Dispatch.lean ====
section
/-! DEFINITION. The dispatch of each instruction to its meaning: one arm per row of spec/opcode_table.json. -/

namespace Sys2Proof.Machine

def exec (i : Instr) (s : State) : Host.Outcome State Fault Refusal :=
  match i with
  | .read a => Sys2Proof.Machine.execRead a s
  | .writePinb d => Sys2Proof.Machine.execWritePinb d s
  | .writePortb d => Sys2Proof.Machine.execWritePortb d s
  | .writePinc d => Sys2Proof.Machine.execWritePinc d s
  | .writePortc d => Sys2Proof.Machine.execWritePortc d s
  | .writePind d => Sys2Proof.Machine.execWritePind d s
  | .writePortd d => Sys2Proof.Machine.execWritePortd d s
  | .writeAdcsra d => Sys2Proof.Machine.execWriteAdcsra d s
  | .writeEecr d => Sys2Proof.Machine.execWriteEecr d s
  | .writeDac d => Sys2Proof.Machine.execWriteDac d s
  | .writeUdr0 d => Sys2Proof.Machine.execWriteUdr0 d s
  | .write a d => Sys2Proof.Machine.execWrite a d s
  | .step n => Sys2Proof.Machine.execStep n s
  | .rxinj b => Sys2Proof.Machine.execRxinj b s
  | .setain v => Sys2Proof.Machine.execSetain v s
  | .dacout => Sys2Proof.Machine.execDacout s
  | .tccr0bCs0 n => Sys2Proof.Machine.execTccr0bCs0 n s
  | .tccr0bCs1 n => Sys2Proof.Machine.execTccr0bCs1 n s
  | .tccr0bCs2 n => Sys2Proof.Machine.execTccr0bCs2 n s
  | .tccr0bCs3 n => Sys2Proof.Machine.execTccr0bCs3 n s
  | .tccr0bCs4 n => Sys2Proof.Machine.execTccr0bCs4 n s
  | .tccr0bCs5 n => Sys2Proof.Machine.execTccr0bCs5 n s
  | .tccr0bCs6 n => Sys2Proof.Machine.execTccr0bCs6 n s
  | .tccr0bCs7 n => Sys2Proof.Machine.execTccr0bCs7 n s
  | .eecrRead => Sys2Proof.Machine.execEecrRead s
  | .eecrWrite => Sys2Proof.Machine.execEecrWrite s
  | .eecrWriteDropped => Sys2Proof.Machine.execEecrWriteDropped s
  | .eecrGateOnly => Sys2Proof.Machine.execEecrGateOnly s
  | .adcsraStart => Sys2Proof.Machine.execAdcsraStart s
  | .adcsraNostart => Sys2Proof.Machine.execAdcsraNostart s
  | .admuxLeft r => Sys2Proof.Machine.execAdmuxLeft r s
  | .admuxRight r => Sys2Proof.Machine.execAdmuxRight r s
  | .ucsr0bTxen new => Sys2Proof.Machine.execUcsr0bTxen new s
  | .ucsr0bTxoff new => Sys2Proof.Machine.execUcsr0bTxoff new s
  | .ucsr0bRxen b => Sys2Proof.Machine.execUcsr0bRxen b s
  | .ucsr0bRxoff b => Sys2Proof.Machine.execUcsr0bRxoff b s

end Sys2Proof.Machine
end

