-- ==== Sys2Proof/WellFormed.lean ====
section
/-! DEFINITION. Which instructions the transaction word of 30_encoding.md R71 can spell. -/

namespace Sys2Proof

/-- The instruction has a code: its offset fits field A (16 bits), its cycle count fits field N (28 bits), and the
generic WRITE does not stand for an offset that has a row of its own (30_encoding.md R71, R85). An instruction that
is not well formed still has its meaning: R74 writes a larger STEP in assembler form. -/
def Instr.wellFormed : Instr → Bool
  | .read a => a < 2 ^ 16
  | .write a _ => a < 2 ^ 16 && !(Reg.dispatching.contains a)
  | .step n => n < 2 ^ 28
  | .writePinb _ | .writePortb _ | .writePinc _ | .writePortc _ | .writePind _ | .writePortd _ | .writeAdcsra _
  | .writeEecr _ | .writeDac _ | .writeUdr0 _ | .rxinj _ | .setain _ | .dacout
  | .tccr0bCs0 _ | .tccr0bCs1 _ | .tccr0bCs2 _ | .tccr0bCs3 _ | .tccr0bCs4 _ | .tccr0bCs5 _ | .tccr0bCs6 _
  | .tccr0bCs7 _ | .eecrRead | .eecrWrite | .eecrWriteDropped | .eecrGateOnly | .adcsraStart | .adcsraNostart
  | .admuxLeft _ | .admuxRight _ | .ucsr0bTxen _ | .ucsr0bTxoff _ | .ucsr0bRxen _ | .ucsr0bRxoff _ => true

end Sys2Proof
end

