-- ==== Sys2Proof/Decode.lean ====
section
/-! DEFINITION. The decoders (30_encoding.md R71 to R73, R76 to R80, R85) and the encoder.

`decodeTxn` reads a transaction word; `decodeCommands` reads the byte of a control register at the point where an
update reads it. Both are total; a word that spells no transaction is rejected by name (R73). -/

namespace Sys2Proof

/-- Why the decoder refuses a word (30_encoding.md R73). -/
inductive Reject where
  /-- K is 0x0 or 0x7..0xF. -/
  | reservedKind
  /-- A field that R71 marks 0 is not zero. -/
  | nonZeroField
  deriving DecidableEq, Repr

/-- The WRITE row an offset selects: the dispatching rows take precedence over the generic one (R85). -/
def writeAt (a : Nat) (d : Byte) : Instr :=
  if a = Reg.pinb then .writePinb d
  else if a = Reg.portb then .writePortb d
  else if a = Reg.pinc then .writePinc d
  else if a = Reg.portc then .writePortc d
  else if a = Reg.pind then .writePind d
  else if a = Reg.portd then .writePortd d
  else if a = Reg.adcsra then .writeAdcsra d
  else if a = Reg.eecr then .writeEecr d
  else if a = Reg.dac then .writeDac d
  else if a = Reg.udr0 then .writeUdr0 d
  else .write a d

/-- Field K, bits [31:28]. -/
def fieldK (w : BitVec 32) : BitVec 4 := w.extractLsb' 28 4
/-- Bits [27:24], zero but in STEP. -/
def fieldHi (w : BitVec 32) : BitVec 4 := w.extractLsb' 24 4
/-- Field A, bits [23:8]. -/
def fieldA (w : BitVec 32) : BitVec 16 := w.extractLsb' 8 16
/-- Field D, bits [7:0]. -/
def fieldD (w : BitVec 32) : Byte := w.extractLsb' 0 8
/-- Field N, bits [27:0]. -/
def fieldN (w : BitVec 32) : BitVec 28 := w.extractLsb' 0 28

/-- The transaction a word spells, v being its side operand, which SETAIN alone takes (R71, R72); every other word is
refused by name (R73). -/
def decodeTxn (w : BitVec 32) (v : Rat) : Except Reject Instr :=
  match (fieldK w).toNat with
  | 1 => if fieldHi w = 0 ∧ fieldD w = 0 then .ok (.read (fieldA w).toNat) else .error .nonZeroField
  | 2 => if fieldHi w = 0 then .ok (writeAt (fieldA w).toNat (fieldD w)) else .error .nonZeroField
  | 3 => .ok (.step (fieldN w).toNat)
  | 4 => if fieldHi w = 0 ∧ fieldA w = 0 then .ok (.rxinj (fieldD w)) else .error .nonZeroField
  | 5 => if fieldHi w = 0 ∧ fieldA w = 0 ∧ fieldD w = 0 then .ok (.setain v) else .error .nonZeroField
  | 6 => if fieldHi w = 0 ∧ fieldA w = 0 ∧ fieldD w = 0 then .ok .dacout else .error .nonZeroField
  | _ => .error .reservedKind

/-- The register an update reads at a command point (R77 to R80). -/
def CommandPoint.register : CommandPoint → Nat
  | .clockSelect _ => Reg.tccr0b
  | .eeprom => Reg.eecr
  | .adcStart => Reg.adcsra
  | .adcLayout _ => Reg.admux
  | .transmit _ => Reg.ucsr0b
  | .receive _ => Reg.ucsr0b

/-- The bits of the register that take part in the decode at a command point (R77 to R80). -/
def CommandPoint.decodedBits : CommandPoint → Byte
  | .clockSelect _ => Bit.csMask
  | .eeprom => Bit.mask Bit.eere ||| Bit.mask Bit.eewe ||| Bit.mask Bit.eemwe
  | .adcStart => Bit.mask Bit.adsc
  | .adcLayout _ => Bit.mask Bit.adlar
  | .transmit _ => Bit.mask Bit.txen
  | .receive _ => Bit.mask Bit.rxen

/-- A transaction word from its fields K, [27:24], A and D (R71). -/
def packWord (k hi : BitVec 4) (a : BitVec 16) (d : Byte) : BitVec 32 :=
  BitVec.ofNat 32 (k.toNat * 2 ^ 28 + hi.toNat * 2 ^ 24 + a.toNat * 2 ^ 8 + d.toNat)

/-- The word of STEP n: K = 3 over the 28-bit count (R71). -/
def packStep (n : Nat) : BitVec 32 :=
  BitVec.ofNat 32 (3 * 2 ^ 28 + n % 2 ^ 28)

/-- The word of WRITE a, d (R71). -/
def encodeWrite (a : Nat) (d : Byte) : BitVec 32 :=
  packWord 2 0 (BitVec.ofNat 16 a) d

/-- A row's mask and match (spec/opcode_table.json). -/
structure Row where
  mask : BitVec 32
  pattern : BitVec 32
  deriving DecidableEq, Repr

/-- The row of a WRITE of one dispatching offset: every bit fixed but field D (R85). -/
def writeRow (a : Nat) : Row := ⟨0xFFFFFF00#32, encodeWrite a 0⟩

/-- The row of a register command: a mask and a match over the byte of the register (R85). -/
def byteRow (mask pattern : Byte) : Row := ⟨mask.setWidth 32, pattern.setWidth 32⟩

/-- The row of spec/opcode_table.json an instruction stands for: over the transaction word for a TXN32 row, over the
byte of the control register for a REG8 row (R85). -/
def Instr.row : Instr → Row
  | .read _ => ⟨0xFF0000FF#32, packWord 1 0 0 0⟩
  | .writePinb _ => writeRow Reg.pinb
  | .writePortb _ => writeRow Reg.portb
  | .writePinc _ => writeRow Reg.pinc
  | .writePortc _ => writeRow Reg.portc
  | .writePind _ => writeRow Reg.pind
  | .writePortd _ => writeRow Reg.portd
  | .writeAdcsra _ => writeRow Reg.adcsra
  | .writeEecr _ => writeRow Reg.eecr
  | .writeDac _ => writeRow Reg.dac
  | .writeUdr0 _ => writeRow Reg.udr0
  | .write _ _ => ⟨0xFF000000#32, packWord 2 0 0 0⟩
  | .step _ => ⟨0xF0000000#32, packWord 3 0 0 0⟩
  | .rxinj _ => ⟨0xFFFFFF00#32, packWord 4 0 0 0⟩
  | .setain _ => ⟨0xFFFFFFFF#32, packWord 5 0 0 0⟩
  | .dacout => ⟨0xFFFFFFFF#32, packWord 6 0 0 0⟩
  | .tccr0bCs0 _ => byteRow Bit.csMask 0
  | .tccr0bCs1 _ => byteRow Bit.csMask 1
  | .tccr0bCs2 _ => byteRow Bit.csMask 2
  | .tccr0bCs3 _ => byteRow Bit.csMask 3
  | .tccr0bCs4 _ => byteRow Bit.csMask 4
  | .tccr0bCs5 _ => byteRow Bit.csMask 5
  | .tccr0bCs6 _ => byteRow Bit.csMask 6
  | .tccr0bCs7 _ => byteRow Bit.csMask 7
  | .eecrRead => byteRow (Bit.mask Bit.eere) (Bit.mask Bit.eere)
  | .eecrWrite => byteRow (Bit.mask Bit.eewe ||| Bit.mask Bit.eemwe) (Bit.mask Bit.eewe ||| Bit.mask Bit.eemwe)
  | .eecrWriteDropped => byteRow (Bit.mask Bit.eewe ||| Bit.mask Bit.eemwe) (Bit.mask Bit.eewe)
  | .eecrGateOnly =>
    byteRow (Bit.mask Bit.eere ||| Bit.mask Bit.eewe ||| Bit.mask Bit.eemwe) (Bit.mask Bit.eemwe)
  | .adcsraStart => byteRow (Bit.mask Bit.adsc) (Bit.mask Bit.adsc)
  | .adcsraNostart => byteRow (Bit.mask Bit.adsc) 0
  | .admuxLeft _ => byteRow (Bit.mask Bit.adlar) (Bit.mask Bit.adlar)
  | .admuxRight _ => byteRow (Bit.mask Bit.adlar) 0
  | .ucsr0bTxen _ => byteRow (Bit.mask Bit.txen) (Bit.mask Bit.txen)
  | .ucsr0bTxoff _ => byteRow (Bit.mask Bit.txen) 0
  | .ucsr0bRxen _ => byteRow (Bit.mask Bit.rxen) (Bit.mask Bit.rxen)
  | .ucsr0bRxoff _ => byteRow (Bit.mask Bit.rxen) 0

/-- A register command's row selects the byte b (R85: `b & mask == match`). -/
def Instr.selects (i : Instr) (b : Byte) : Bool :=
  b.setWidth 32 &&& i.row.mask == i.row.pattern

/-- The branches named at a command point, in the order of the update's pseudocode (R85). -/
def CommandPoint.branches : CommandPoint → List Instr
  | .clockSelect n =>
    [.tccr0bCs0 n, .tccr0bCs1 n, .tccr0bCs2 n, .tccr0bCs3 n, .tccr0bCs4 n, .tccr0bCs5 n, .tccr0bCs6 n, .tccr0bCs7 n]
  | .eeprom => [.eecrRead, .eecrWrite, .eecrWriteDropped, .eecrGateOnly]
  | .adcStart => [.adcsraStart, .adcsraNostart]
  | .adcLayout r => [.admuxLeft r, .admuxRight r]
  | .transmit new => [.ucsr0bTxen new, .ucsr0bTxoff new]
  | .receive b => [.ucsr0bRxen b, .ucsr0bRxoff b]

/-- The register commands the byte b of the register at p selects (R85): several rows of EECR may match one byte. -/
def decodeCommands (p : CommandPoint) (b : Byte) : List Instr :=
  p.branches.filter (·.selects b)

/-- The decoder on codes: a word gives one transaction, a register byte the commands it selects. -/
def decode : Code → Except Reject (List Instr)
  | .txn w v => (decodeTxn w v).map fun i => [i]
  | .reg8 p b => .ok (decodeCommands p b)

/-! The encoder, from the tables of 30_encoding.md R71 and R77 to R80. -/

/-- The byte of a register command's row with every undecoded bit zero: the row's match. -/
def Instr.patternByte (i : Instr) : Byte := i.row.pattern.setWidth 8

/-- The code of an instruction. -/
def encode : Instr → Code
  | .read a => .txn (packWord 1 0 (BitVec.ofNat 16 a) 0) 0
  | .writePinb d => .txn (encodeWrite Reg.pinb d) 0
  | .writePortb d => .txn (encodeWrite Reg.portb d) 0
  | .writePinc d => .txn (encodeWrite Reg.pinc d) 0
  | .writePortc d => .txn (encodeWrite Reg.portc d) 0
  | .writePind d => .txn (encodeWrite Reg.pind d) 0
  | .writePortd d => .txn (encodeWrite Reg.portd d) 0
  | .writeAdcsra d => .txn (encodeWrite Reg.adcsra d) 0
  | .writeEecr d => .txn (encodeWrite Reg.eecr d) 0
  | .writeDac d => .txn (encodeWrite Reg.dac d) 0
  | .writeUdr0 d => .txn (encodeWrite Reg.udr0 d) 0
  | .write a d => .txn (encodeWrite a d) 0
  | .step n => .txn (packStep n) 0
  | .rxinj b => .txn (packWord 4 0 0 b) 0
  | .setain v => .txn (packWord 5 0 0 0) v
  | .dacout => .txn (packWord 6 0 0 0) 0
  | .tccr0bCs0 n => .reg8 (.clockSelect n) (Instr.tccr0bCs0 n).patternByte
  | .tccr0bCs1 n => .reg8 (.clockSelect n) (Instr.tccr0bCs1 n).patternByte
  | .tccr0bCs2 n => .reg8 (.clockSelect n) (Instr.tccr0bCs2 n).patternByte
  | .tccr0bCs3 n => .reg8 (.clockSelect n) (Instr.tccr0bCs3 n).patternByte
  | .tccr0bCs4 n => .reg8 (.clockSelect n) (Instr.tccr0bCs4 n).patternByte
  | .tccr0bCs5 n => .reg8 (.clockSelect n) (Instr.tccr0bCs5 n).patternByte
  | .tccr0bCs6 n => .reg8 (.clockSelect n) (Instr.tccr0bCs6 n).patternByte
  | .tccr0bCs7 n => .reg8 (.clockSelect n) (Instr.tccr0bCs7 n).patternByte
  | .eecrRead => .reg8 .eeprom Instr.eecrRead.patternByte
  | .eecrWrite => .reg8 .eeprom Instr.eecrWrite.patternByte
  | .eecrWriteDropped => .reg8 .eeprom Instr.eecrWriteDropped.patternByte
  | .eecrGateOnly => .reg8 .eeprom Instr.eecrGateOnly.patternByte
  | .adcsraStart => .reg8 .adcStart Instr.adcsraStart.patternByte
  | .adcsraNostart => .reg8 .adcStart Instr.adcsraNostart.patternByte
  | .admuxLeft r => .reg8 (.adcLayout r) (Instr.admuxLeft r).patternByte
  | .admuxRight r => .reg8 (.adcLayout r) (Instr.admuxRight r).patternByte
  | .ucsr0bTxen new => .reg8 (.transmit new) (Instr.ucsr0bTxen new).patternByte
  | .ucsr0bTxoff new => .reg8 (.transmit new) (Instr.ucsr0bTxoff new).patternByte
  | .ucsr0bRxen b => .reg8 (.receive b) (Instr.ucsr0bRxen b).patternByte
  | .ucsr0bRxoff b => .reg8 (.receive b) (Instr.ucsr0bRxoff b).patternByte

/-! Reading a table row's word as the host numbers it. -/

/-- The command points in the order of R77 to R80, each with the argument 0: a byte alone gives no argument. -/
def bytePoints : List CommandPoint :=
  [.clockSelect 0, .eeprom, .adcStart, .adcLayout 0, .transmit 0, .receive 0]

/-- The command point a bare byte is read at (log entry 15): a byte does not say which register it stands in, so it is
read at the first point, in the order of R77 to R80, whose decoded bits cover all its set bits. -/
def byteHome (b : Byte) : Option CommandPoint :=
  bytePoints.find? fun p => b &&& ~~~p.decodedBits == 0

/-- The instruction the decoder reads from an instruction of nbits bits with value w: 32 bits are a transaction word
with side operand 0, 8 bits the byte of a control register (see `byteHome`); no other length exists (R83, R85). -/
def decodeTableWord (nbits w : Nat) : Option Instr :=
  match nbits with
  | 32 => (decodeTxn (BitVec.ofNat 32 w) 0).toOption
  | 8 => (byteHome (BitVec.ofNat 8 w)).bind fun p => (decodeCommands p (BitVec.ofNat 8 w)).head?
  | _ => none

end Sys2Proof
end

