-- ==== Sys2Proof/Machine/Requests.lean ====
section
/-! DEFINITION. The transaction a waiting request stands for (30_encoding.md R71, R73, R74, R75), and how a table word
comes to be the next request. -/

namespace Sys2Proof.Machine

/-- The byte the executor's last READ of offset a returned. -/
def lastRead (xs : List Answer) (a : Nat) : Option Byte :=
  xs.foldl (fun found x =>
    match x with
    | .read b v => if b = a then some v else found
    | .dacOut _ _ => found) none

/-- The WRITE that ends SETB or CLRB: f applied to what the READ returned (R75). -/
def writeBack (s : State) (a : Nat) (f : Byte → Byte) : Except Refusal Instr :=
  match lastRead s.answers a with
  | some x => .ok (writeAt a (f x))
  | none => .error (.noReadAnswered a)

/-- The transaction a request stands for; a request that stands for none is refused by name. -/
def resolve (s : State) : Request → Except Refusal Instr
  | .word w v =>
    match decodeTxn w v with
    | .ok i => .ok i
    | .error _ => .error (.reservedWord w)
  | .line i => if i.isTransaction then .ok i else .error .notATransaction
  | .setBack a i => writeBack s a (withBit · i)
  | .clearBack a i => writeBack s a (withoutBit · i)

/-- `SETB a, i` as the two requests the executor issues; a host request may be put between them (R75). -/
def expandSetb (a : Nat) (i : Fin 8) : List Request := [.line (.read a), .setBack a i]

/-- `CLRB a, i` as the two requests the executor issues (R75). -/
def expandClrb (a : Nat) (i : Fin 8) : List Request := [.line (.read a), .clearBack a i]

/-- Put a request before those that wait. -/
def State.issue (s : State) (r : Request) : State := { s with inbox := r :: s.inbox }

/-- The register read at point p holds the byte b, as a WRITE of it leaves it, and the transaction whose update reads
it there is issued: the only way a register command comes to run (R70, R85; log entry 15). EECR and ADCSRA are written
by that transaction itself. -/
def State.issueCommand (s : State) (p : CommandPoint) (b : Byte) : State :=
  match p with
  | .clockSelect n => (s.record Reg.tccr0b b).issue (.line (.step n))
  | .eeprom => s.issue (.word (encodeWrite Reg.eecr b) 0)
  | .adcStart => s.issue (.word (encodeWrite Reg.adcsra b) 0)
  | .adcLayout _ =>
    (s.record Reg.admux b).issue (.word (encodeWrite Reg.adcsra (Bit.mask Bit.adsc)) 0)
  | .transmit new => (s.record Reg.ucsr0b b).issue (.word (encodeWrite Reg.udr0 new) 0)
  | .receive x => (s.record Reg.ucsr0b b).issue (.line (.rxinj x))

/-- A table word made the next request: a transaction word as it stands with side operand 0, a register byte through
the transaction whose update reads it. -/
def State.issueTableWord (s : State) (nbits w : Nat) : State :=
  match nbits with
  | 32 => s.issue (.word (BitVec.ofNat 32 w) 0)
  | 8 =>
    match byteHome (BitVec.ofNat 8 w) with
    | some p => s.issueCommand p (BitVec.ofNat 8 w)
    | none => s
  | _ => s

end Sys2Proof.Machine
end

