-- ==== Sys2Proof/Machine/Step.lean ====
section
/-! DEFINITION. One step: the next waiting transaction, whole (20_memory.md R55, R58). -/

namespace Sys2Proof.Machine

/-- One step. A state with the fault mark set takes no further transaction (10_state.md R44). With no transaction
waiting the block holds its state (60_exceptions.md R223). Otherwise the oldest waiting transaction runs from its first
line to its last (20_memory.md R55). -/
def step (s : State) : Host.Outcome State Fault Refusal :=
  match s.fault with
  | some a => .fault (.outOfBounds a)
  | none =>
    match s.inbox with
    | [] => .next s
    | r :: rest =>
      match resolve s r with
      | .ok i => exec i { s with inbox := rest }
      | .error e => .refused e

/-- s with a table word as the next request (log entry 15). -/
def State.withFetchWord (s : State) (nbits w : Nat) : State := s.issueTableWord nbits w

end Sys2Proof.Machine
end

