-- ==== Sys2Proof/Machine/Reset.lean ====
section
/-! DEFINITION. Construction with an EEPROM preinit buffer (70_reset_and_hazards.md R240, R241). `State.reset` is the
construction with none. -/

namespace Sys2Proof.Machine

/-- A power of two in 1..65536 (R241): 2^k for some k of 0..16. -/
def eeSizeOk (size : Nat) : Bool := (List.range 17).any fun k => size == 2 ^ k

/-- The cells of a buffer laid from address a on. -/
def layBuffer : Nat → List Byte → List Host.Cell
  | _, [] => []
  | a, b :: bs => (a, b) :: layBuffer (a + 1) bs

/-- `EepromInit(preinit)` for an image of the given size: refused where the size is no power of two in 1..65536 or the
buffer is longer; the bytes the buffer supplies are listed, every other byte is the free EE_INIT (R241). -/
def eepromInit (size : Nat) (preinit : List Byte) : Except Refusal (List Host.Cell) :=
  if !eeSizeOk size then .error (.badEepromSize size)
  else if size < preinit.length then .error (.preinitTooLong preinit.length)
  else .ok (layBuffer 0 preinit)

/-- `Reset(preinit)` (R240): every field at its reset value, the EEPROM image from the buffer. -/
def construct (preinit : List Byte) : Except Refusal State :=
  (eepromInit Param.eeSize preinit).map fun e => { State.reset with eeprom := e }

end Sys2Proof.Machine
end

