-- ==== Sys2Proof/Safety.lean ====
section
/-! DEFINITION. What counts as a good state and as an observation, in the terms the statements use. -/

namespace Sys2Proof

/-- The offset an instruction's WRITE stores to; none for an instruction that is no WRITE. -/
def Instr.writeTarget : Instr → Option Nat
  | .writePinb _ => some Reg.pinb
  | .writePortb _ => some Reg.portb
  | .writePinc _ => some Reg.pinc
  | .writePortc _ => some Reg.portc
  | .writePind _ => some Reg.pind
  | .writePortd _ => some Reg.portd
  | .writeAdcsra _ => some Reg.adcsra
  | .writeEecr _ => some Reg.eecr
  | .writeDac _ => some Reg.dac
  | .writeUdr0 _ => some Reg.udr0
  | .write a _ => some a
  | .read _ | .step _ | .rxinj _ | .setain _ | .dacout
  | .tccr0bCs0 _ | .tccr0bCs1 _ | .tccr0bCs2 _ | .tccr0bCs3 _ | .tccr0bCs4 _ | .tccr0bCs5 _ | .tccr0bCs6 _
  | .tccr0bCs7 _ | .eecrRead | .eecrWrite | .eecrWriteDropped | .eecrGateOnly | .adcsraStart | .adcsraNostart
  | .admuxLeft _ | .admuxRight _ | .ucsr0bTxen _ | .ucsr0bTxoff _ | .ucsr0bRxen _ | .ucsr0bRxoff _ => none

/-- The instruction runs the timer: STEP or a branch of it. -/
def Instr.stepsTimer : Instr → Bool
  | .step _ | .tccr0bCs0 _ | .tccr0bCs1 _ | .tccr0bCs2 _ | .tccr0bCs3 _ | .tccr0bCs4 _ | .tccr0bCs5 _ | .tccr0bCs6 _
  | .tccr0bCs7 _ => true
  | .read _ | .writePinb _ | .writePortb _ | .writePinc _ | .writePortc _ | .writePind _ | .writePortd _
  | .writeAdcsra _ | .writeEecr _ | .writeDac _ | .writeUdr0 _ | .write _ _ | .rxinj _ | .setain _ | .dacout
  | .eecrRead | .eecrWrite | .eecrWriteDropped | .eecrGateOnly | .adcsraStart | .adcsraNostart
  | .admuxLeft _ | .admuxRight _ | .ucsr0bTxen _ | .ucsr0bTxoff _ | .ucsr0bRxen _ | .ucsr0bRxoff _ => false

end Sys2Proof

namespace Sys2Proof.Machine

/-- No fault is recorded: the state takes transactions (60_exceptions.md R214). -/
abbrev State.Running (s : State) : Prop := s.fault = none

/-- The host may observe the event (10_state.md R43). -/
def Event.hostVisible : Event → Bool
  | .memChange _ _ _ => false
  | .portChange _ _ _ | .pinChange _ _ _ _ | .uartTx _ => true

/-- The host observation of a run: the host-visible events and the answers of READ and DACOUT (10_state.md R43). -/
def State.observation (s : State) : List Event × List Answer :=
  (s.trace.filter Event.hostVisible, s.answers)

/-- The byte the last MemChange at offset a in the trace stored, else `d`. -/
def lastStored (a : Nat) (d : Byte) : List Event → Byte
  | [] => d
  | .memChange b _ new :: es => lastStored a (if b = a then new else d) es
  | .portChange _ _ _ :: es => lastStored a d es
  | .pinChange _ _ _ _ :: es => lastStored a d es
  | .uartTx _ :: es => lastStored a d es

/-- The payload of an event lies in the ranges of 10_state.md R43: a MemChange's offset is in the buffer, a PinChange's
mask is the one-bit mask of a pin of its port. -/
def Event.payloadOk : Event → Bool
  | .memChange a _ _ => a < Param.memSize
  | .pinChange p m _ _ => (pinMasks p).contains m
  | .portChange _ _ _ | .uartTx _ => true

/-- The fault mark, where set, holds an offset outside the buffer (10_state.md R44). -/
def faultOk : Option Nat → Bool
  | none => true
  | some a => Param.memSize ≤ a

/-- The invariant of the block: M and E in canonical form (10_state.md R22, R39), `acc` at most 1023 (R40), `dac` the
byte at 0xFE (40_bus_dispatch.md R97), every event's payload in range (R43), the fault mark outside the buffer (R44). -/
def State.Inv (s : State) : Prop :=
  Memory.wf s.mem = true ∧ Eeprom.wf s.eeprom = true ∧ s.acc ≤ 1023 ∧ s.dac = s.byteAt Reg.dac ∧
    s.trace.all Event.payloadOk = true ∧ faultOk s.fault = true

/-- Every byte of M is what the last MemChange at its offset stored, and its reset byte where there is none
(20_memory.md R58). -/
def State.MatchesTrace (s : State) : Prop :=
  ∀ a, s.byteAt a = lastStored a (resetByte a) s.trace

/-- Every field but mem and trace is the same in both states: with what a statement says of M byte by byte and of the
trace, the frame of an instruction that stores in M only. -/
def State.SameBesidesMem (s t : State) : Prop :=
  t.eeprom = s.eeprom ∧ t.acc = s.acc ∧ t.ain = s.ain ∧ t.dac = s.dac ∧ t.fault = s.fault ∧
    t.answers = s.answers ∧ t.inbox = s.inbox

/-- Every byte of M is the same in both states, but for the listed offsets, which hold the bytes listed with them (the
first entry of an offset counts). -/
def State.StoresOnly (s t : State) (cells : List Host.Cell) : Prop :=
  ∀ a, t.byteAt a = (findCell cells a).getD (s.byteAt a)

/-- The events of n ticks from a counter at c and a flag register at f: one MemChange at TCNT0 a tick, and after each
wrap's one at TIFR0 (41_timer.md R113, R114). -/
def tickEvents : Nat → Byte → Byte → List Event
  | 0, _, _ => []
  | n + 1, c, f =>
    if c = 255#8 then
      .memChange Reg.tcnt0 c 0#8 :: .memChange Reg.tifr0 f (f ||| 1#8 <<< Bit.tov) ::
        tickEvents n 0#8 (f ||| 1#8 <<< Bit.tov)
    else .memChange Reg.tcnt0 c (c + 1#8) :: tickEvents n (c + 1#8) f

/-- How many MemChange events at offset a a list of events holds. -/
def changesAt (a : Nat) : List Event → Nat
  | [] => 0
  | .memChange b _ _ :: es => (if b = a then 1 else 0) + changesAt a es
  | .portChange _ _ _ :: es => changesAt a es
  | .pinChange _ _ _ _ :: es => changesAt a es
  | .uartTx _ :: es => changesAt a es

/-- Run instructions one after another, stopping at the first that answers no next state. -/
def execAll : List Instr → State → Result
  | [], s => .next s
  | i :: is, s =>
    match exec i s with
    | .next t => execAll is t
    | .fault r => .fault r
    | .refused r => .refused r

/-- EECR after an update that found the byte v in it (42_eeprom.md R134): EERE and EEWE cleared, EEMWE too where a write
was performed, the other bits kept. -/
def eecrAfter (v : Byte) : Byte :=
  if bitOf v Bit.eewe && bitOf v Bit.eemwe then
    v &&& ~~~(Bit.mask Bit.eere ||| Bit.mask Bit.eewe ||| Bit.mask Bit.eemwe)
  else v &&& ~~~(Bit.mask Bit.eere ||| Bit.mask Bit.eewe)

/-- The notifications of the block's own writes of one update that found v in EECR, d in EEDR and x in the addressed
byte of E (42_eeprom.md R136). -/
def eecrEvents (v d x : Byte) : List Event :=
  let v1 := if bitOf v Bit.eere then v &&& ~~~(Bit.mask Bit.eere) else v
  let v2 := if bitOf v Bit.eemwe then v1 &&& ~~~(Bit.mask Bit.eewe ||| Bit.mask Bit.eemwe)
    else v1 &&& ~~~(Bit.mask Bit.eewe)
  (if bitOf v Bit.eere then [.memChange Reg.eedr d x, .memChange Reg.eecr v v1] else []) ++
    (if bitOf v Bit.eewe then [.memChange Reg.eecr v1 v2] else [])

end Sys2Proof.Machine
end

