-- ==== Sys2Proof/Certificates/Slice0/Obligations.lean ====
section
/-! DEFINITION. The statements for the provers, one def per statement, from the numbered rules of spec/.

Where a statement rests on a point that the spec marks as its own decision or derivation, or on a log entry of the
model's, its docstring says so. -/

open Sys2Proof Sys2Proof.Machine

/-! Encoding (30_encoding.md). -/

/-- Every well-formed instruction is what the decoder reads from its code, every operand at every value the encoding
admits. The word is the spec's own notation (R71, decision D27); log entry 15 for the register commands. -/
def Obligations.EncodeThenDecodeIsIdentity : Prop :=
  ∀ i : Instr, i.wellFormed = true → decode (encode i) = .ok [i]

/-- A word that decodes is the code of what it decodes to, which is a well-formed transaction whose row of
spec/opcode_table.json the word matches; SETAIN takes the side operand (R71, R72, R85; decision D27). -/
def Obligations.DecodedWordIsItsCode : Prop :=
  ∀ (w : BitVec 32) (v : Rat) (i : Instr), decodeTxn w v = .ok i →
    i.isTransaction = true ∧ i.wellFormed = true ∧ w &&& i.row.mask = i.row.pattern ∧
      (∃ side, encode i = .txn w side) ∧ ∀ x, i = .setain x → x = v

/-- The words R84 and 95_test_vectors.md F.8 write out decode to the transactions they stand for. -/
def Obligations.SpecWordsDecode : Prop :=
  decodeTxn 0x20003F06#32 0 = .ok (.writeEecr 0x06#8) ∧ decodeTxn 0x10004600#32 0 = .ok (.read 0x46) ∧
    decodeTxn 0x30000100#32 0 = .ok (.step 256) ∧ decodeTxn 0x40000055#32 0 = .ok (.rxinj 0x55#8) ∧
    decodeTxn 0x50000000#32 (mkRat 5 2) = .ok (.setain (mkRat 5 2)) ∧ decodeTxn 0x60000000#32 0 = .ok .dacout ∧
    decodeTxn 0x20002520#32 0 = .ok (.writePortb 0x20#8) ∧ decodeTxn 0x2000C641#32 0 = .ok (.writeUdr0 0x41#8) ∧
    decodeTxn 0x3FFFFFFF#32 0 = .ok (.step 268435455)

/-- Exactly the words R73 names are refused, each for its reason: K = 0 or 7..15, or a bit of a zero field of R71 set
(decision D27). -/
def Obligations.ReservedWordsAreRefused : Prop :=
  ∀ (w : BitVec 32) (v : Rat),
    (decodeTxn w v = .error .reservedKind ↔ w.toNat / 2 ^ 28 = 0 ∨ 7 ≤ w.toNat / 2 ^ 28) ∧
      (decodeTxn w v = .error .nonZeroField ↔
        ∃ x ∈ [(1, 0x0F0000FF#32), (2, 0x0F000000#32), (4, 0x0FFFFF00#32), (5, 0x0FFFFFFF#32), (6, 0x0FFFFFFF#32)],
          w.toNat / 2 ^ 28 = x.1 ∧ w &&& x.2 ≠ 0#32)

/-- Each update does what the register commands its control register selects do, one after another (R85, marked derived
in the spec; log entry 15): STEP by TCCR0B, EepromUpdate by EECR, AdcUpdate by ADCSRA, the result layout by ADMUX, the
transmit hook and RXINJ by UCSR0B. -/
def Obligations.UpdatesRunTheSelectedCommands : Prop :=
  ∀ s : State, s.Running →
    (∀ n, execAll (decodeCommands (.clockSelect n) (s.byteAt Reg.tccr0b)) s = exec (.step n) s) ∧
      execAll (decodeCommands .eeprom (s.byteAt Reg.eecr)) s = .next (eepromUpdate memWrite s) ∧
      execAll (decodeCommands .adcStart (s.byteAt Reg.adcsra)) s = .next (adcUpdate memWrite s) ∧
      (∀ r, execAll (decodeCommands (.adcLayout r) (s.byteAt Reg.admux)) s =
        .next (if bitOf (s.byteAt Reg.admux) Bit.adlar then adcStoreLeft memWrite r s
          else adcStoreRight memWrite r s)) ∧
      (∀ b, execAll (decodeCommands (.transmit b) (s.byteAt Reg.ucsr0b)) s = .next (uartTransmit memWrite b s)) ∧
      ∀ b, execAll (decodeCommands (.receive b) (s.byteAt Reg.ucsr0b)) s = exec (.rxinj b) s

/-- A register command whose row the live byte of its register does not select runs no branch and changes nothing
(R85; log entry 15). -/
def Obligations.UnselectedCommandsDoNothing : Prop :=
  ∀ (s : State) (p : CommandPoint) (i : Instr), s.Running → i ∈ p.branches →
    i.selects (s.byteAt p.register) = false → exec i s = .next s

/-! The step. -/

/-- A step runs the oldest waiting request on the state without it: a word what it decodes to, an assembler line the
transaction it spells, the second half of SETB or CLRB the WRITE of what the last READ of its offset returned with the
bit set or cleared. Refused by name: a reserved word, a line that is no transaction, a second half at an offset no READ
has answered for. With none waiting the state stays (R55, R58, R70, R73, R75, R223; log entries 2, 15 and 19). -/
def Obligations.StepRunsTheDecodedTransaction : Prop :=
  ∀ s : State, s.Running →
    (s.inbox = [] → step s = .next s) ∧
      (∀ rest w v i, s.inbox = .word w v :: rest → decodeTxn w v = .ok i → step s = exec i { s with inbox := rest }) ∧
      (∀ rest w v e, s.inbox = .word w v :: rest → decodeTxn w v = .error e → step s = .refused (.reservedWord w)) ∧
      (∀ rest i, s.inbox = .line i :: rest → i.isTransaction = true → step s = exec i { s with inbox := rest }) ∧
      (∀ rest i, s.inbox = .line i :: rest → i.isTransaction = false → step s = .refused .notATransaction) ∧
      ∀ rest a k,
        (∀ xs x ys, s.answers = xs ++ .read a x :: ys → (∀ y, .read a y ∉ ys) →
          (s.inbox = .setBack a k :: rest →
            step s = exec (writeAt a (x ||| 1#8 <<< k.val)) { s with inbox := rest }) ∧
          (s.inbox = .clearBack a k :: rest →
            step s = exec (writeAt a (x &&& ~~~(1#8 <<< k.val))) { s with inbox := rest })) ∧
        ((∀ x, .read a x ∉ s.answers) → s.inbox = .setBack a k :: rest ∨ s.inbox = .clearBack a k :: rest →
          step s = .refused (.noReadAnswered a))

/-- SETB and CLRB are a READ and then a WRITE of what it returned with the bit set or cleared (R75, marked derived in the
spec; log entry 19). After a READ the second half stands for that WRITE; and two steps through the expansion run the READ
and the WRITE, which stores the byte with the bit set or cleared, notified first of all; it stays in place but where EECR
or ADCSRA changes itself. -/
def Obligations.SetbAndClrbWriteBackTheReadByte : Prop :=
  (∀ (s t : State) (a : Nat) (i : Fin 8), a < Param.memSize → exec (.read a) s = .next t →
    resolve t (.setBack a i) = .ok (writeAt a (s.byteAt a ||| 1#8 <<< i.val)) ∧
      resolve t (.clearBack a i) = .ok (writeAt a (s.byteAt a &&& ~~~(1#8 <<< i.val)))) ∧
    ∀ (s : State) (a : Nat) (i : Fin 8) (rest : List Request), s.Running → a < Param.memSize →
      ∀ x ∈ [(expandSetb a i, s.byteAt a ||| 1#8 <<< i.val), (expandClrb a i, s.byteAt a &&& ~~~(1#8 <<< i.val))],
      s.inbox = x.1 ++ rest →
        ∃ t u es, step s = .next t ∧ step t = .next u ∧
          exec (writeAt a x.2) { s with answers := s.answers ++ [.read a (s.byteAt a)], inbox := rest } = .next u ∧
          u.trace = s.trace ++ .memChange a (s.byteAt a) x.2 :: es ∧ u.inbox = rest ∧
          u.answers = s.answers ++ [.read a (s.byteAt a)] ∧
          (¬(a = Reg.eecr ∧ (bitOf x.2 Bit.eere = true ∨ bitOf x.2 Bit.eewe = true)) →
            ¬(a = Reg.adcsra ∧ bitOf x.2 Bit.adsc = true) → u.byteAt a = x.2)

/-- An enabled receive between the two halves of an executor's SETB or CLRB of UCSR0A: it sets RXC, and TXC and UDRE
where it echoes; then the WRITE stores the byte read before it with the executor's bit set or cleared, so each of these
flags but that bit returns to its earlier value, and the received byte stays in UDR0. Between the halves of a SETB or
CLRB of UDR0, the other register the receive writes, the received byte is lost and RXC stays set (R252, marked derived in
the spec; log entries 11 and 19). -/
def Obligations.ReceiveBetweenHalvesLosesItsFlag : Prop :=
  ∀ (s s1 s2 s3 : State) (b : Byte) (a : Nat) (i : Fin 8) (w : Instr),
    bitOf (s.byteAt Reg.ucsr0b) Bit.rxen = true → a ∈ [Reg.ucsr0a, Reg.udr0] →
    exec (.read a) s = .next s1 → exec (.rxinj b) s1 = .next s2 →
    ∀ x ∈ [(Request.setBack a i, s.byteAt a ||| 1#8 <<< i.val), (.clearBack a i, s.byteAt a &&& ~~~(1#8 <<< i.val))],
    resolve s2 x.1 = .ok w → exec w s2 = .next s3 →
      bitOf (s2.byteAt Reg.ucsr0a) Bit.rxc = true ∧ s2.byteAt Reg.udr0 = b ∧
        (bitOf (s.byteAt Reg.ucsr0b) Bit.txen = true →
          bitOf (s2.byteAt Reg.ucsr0a) Bit.txc = true ∧ bitOf (s2.byteAt Reg.ucsr0a) Bit.udre = true) ∧
        s3.byteAt a = x.2 ∧
        (a = Reg.ucsr0a → s3.byteAt Reg.udr0 = b ∧
          ∀ f ∈ [Bit.rxc, Bit.txc, Bit.udre], i.val ≠ f →
            bitOf (s3.byteAt Reg.ucsr0a) f = bitOf (s.byteAt Reg.ucsr0a) f) ∧
        (a = Reg.udr0 → bitOf (s3.byteAt Reg.ucsr0a) Bit.rxc = true)

/-! READ, WRITE, the multiplexer, the DAC (40_bus_dispatch.md). -/

/-- READ of an offset in the buffer returns its byte and changes nothing else (R91; R54, decision D21; the answer is
kept as log entry 3 says). -/
def Obligations.ReadReturnsTheByte : Prop :=
  ∀ (s : State) (a : Nat), s.Running → a < Param.memSize →
    exec (.read a) s = .next { s with answers := s.answers ++ [.read a (s.byteAt a)] }

/-- A WRITE of an offset that selects no update stores its byte, emits its notification and does nothing else, and a
READ then returns the byte (R38). The dispatching registers have statements of their own. -/
def Obligations.PlainWriteStoresAndNotifies : Prop :=
  ∀ (s : State) (a : Nat) (d : Byte), s.Running → a < Param.memSize → a ∉ Reg.dispatching →
    ∃ t, exec (.write a d) s = .next t ∧ s.StoresOnly t [(a, d)] ∧
      t.trace = s.trace ++ [.memChange a (s.byteAt a) d] ∧ s.SameBesidesMem t ∧
      exec (.read a) t = .next { t with answers := t.answers ++ [.read a d] }

/-- The generic WRITE at any offset does what the row of that offset does (R85, R92). -/
def Obligations.GenericWriteActsAsItsRow : Prop :=
  ∀ (s : State) (a : Nat) (d : Byte), exec (.write a d) s = exec (writeAt a d) s

/-- What was written reads back, but for the two registers that change themselves: EECR with EERE or EEWE set, ADCSRA
with ADSC set (R54; 95_test_vectors.md L1.7). -/
def Obligations.WrittenByteReadsBack : Prop :=
  ∀ (s t : State) (a : Nat) (d : Byte), a < Param.memSize → exec (writeAt a d) s = .next t →
    ¬(a = Reg.eecr ∧ (bitOf d Bit.eere = true ∨ bitOf d Bit.eewe = true)) →
    ¬(a = Reg.adcsra ∧ bitOf d Bit.adsc = true) → t.byteAt a = d

/-- WRITE DAC stores the byte and loads the DAC output with it; nothing else changes (R95, R37). -/
def Obligations.WriteDacLoadsTheOutput : Prop :=
  ∀ (s : State) (d : Byte), s.Running →
    ∃ t, exec (.writeDac d) s = .next t ∧ t.dac = d ∧ s.StoresOnly t [(Reg.dac, d)] ∧
      t.trace = s.trace ++ [.memChange Reg.dac (s.byteAt Reg.dac) d] ∧ t.eeprom = s.eeprom ∧ t.acc = s.acc ∧
      t.ain = s.ain ∧ t.fault = s.fault ∧ t.answers = s.answers ∧ t.inbox = s.inbox

/-- DACOUT returns the DAC byte and its voltage dac * 5 / 255 = dac / 51, between 0 and 5, and changes nothing else
(R96; the exact rational is decision D16). -/
def Obligations.DacoutReturnsByteAndVoltage : Prop :=
  ∀ s : State, s.Running →
    ∃ v : Rat, exec .dacout s = .next { s with answers := s.answers ++ [.dacOut s.dac v] } ∧
      v * 255 = (s.dac.toNat : Rat) * 5 ∧ v = (s.dac.toNat : Rat) / 51 ∧ 0 ≤ v ∧ v ≤ 5

/-- The DAC output changes only on a WRITE of the DAC's offset (R42). Its voltage is byte / 255 * 5, the formula of R42
in exact rationals, which is the spec's decision D16 and the model's log entry 21: the original computes in floating
point. -/
def Obligations.DacChangesOnlyOnItsWrite : Prop :=
  (∀ (i : Instr) (s t : State), exec i s = .next t → t.dac ≠ s.dac → i.writeTarget = some Reg.dac) ∧
    ∀ b : Byte, dacVoltage b = (b.toNat : Rat) / 255 * 5

/-- Nested dispatch ends: more levels than three change nothing, whatever is written where (R99, marked derived in the
spec; log entry 16). -/
def Obligations.ThreeNestingLevelsSuffice : Prop :=
  ∀ (k : Nat) (a : Nat) (v : Byte) (s : State), memWriteAt (k + 3) a v s = memWriteAt 3 a v s

/-- But for the offset a WRITE names, an instruction changes no byte of M but the nine the block itself writes: TIFR0,
EECR, EEDR, TCNT0, ADCL, ADCH, ADCSRA, UCSR0A, UDR0 (R98). So it changes no GPIO register, no TCCR0B, EEAR, ADMUX,
UCSR0B or DAC byte and no general memory (R193). -/
def Obligations.BlockWritesOnlyItsOwnRegisters : Prop :=
  ∀ (i : Instr) (s t : State) (a : Nat), exec i s = .next t → i.writeTarget ≠ some a →
    a ∉ [Reg.tifr0, Reg.eecr, Reg.eedr, Reg.tcnt0, Reg.adcl, Reg.adch, Reg.adcsra, Reg.ucsr0a, Reg.udr0] →
    t.byteAt a = s.byteAt a

/-- Which instructions may change which state outside M: E only the EEPROM update, acc only the timer, ain only SETAIN,
answers only READ and DACOUT, and never the waiting requests (R39, R40, R41, R54; log entries 2 and 3). -/
def Obligations.EachStateHasItsWriters : Prop :=
  ∀ (i : Instr) (s t : State), exec i s = .next t →
    (t.eeprom ≠ s.eeprom → i.writeTarget = some Reg.eecr ∨ i = .eecrRead ∨ i = .eecrWrite) ∧
      (t.acc ≠ s.acc → i.stepsTimer = true) ∧ (t.ain ≠ s.ain → i = .setain t.ain) ∧
      (t.answers ≠ s.answers → (∃ a, i = .read a) ∨ i = .dacout) ∧ t.inbox = s.inbox

/-! The timer (41_timer.md). -/

/-- One tick: at 255 TCNT0 is written 0 and then TOV is set, else TCNT0 is incremented; each write is notified and
nothing else changes (R113). -/
def Obligations.TickIncrementsAndWraps : Prop :=
  ∀ s : State,
    (s.byteAt Reg.tcnt0 = 255#8 →
      s.StoresOnly (tick s) [(Reg.tcnt0, 0#8), (Reg.tifr0, s.byteAt Reg.tifr0 ||| 1#8 <<< Bit.tov)] ∧
        (tick s).trace = s.trace ++ [.memChange Reg.tcnt0 255#8 0#8,
          .memChange Reg.tifr0 (s.byteAt Reg.tifr0) (s.byteAt Reg.tifr0 ||| 1#8 <<< Bit.tov)] ∧
        s.SameBesidesMem (tick s)) ∧
      (s.byteAt Reg.tcnt0 ≠ 255#8 →
        s.StoresOnly (tick s) [(Reg.tcnt0, s.byteAt Reg.tcnt0 + 1#8)] ∧
          (tick s).trace = s.trace ++ [.memChange Reg.tcnt0 (s.byteAt Reg.tcnt0) (s.byteAt Reg.tcnt0 + 1#8)] ∧
          s.SameBesidesMem (tick s))

/-- With CS = 0, 6 or 7 STEP changes nothing, and the cycles are lost; so do the branches of those rows (R111). -/
def Obligations.InertClockSelects : Prop :=
  ∀ (s : State) (n : Nat), s.Running →
    ((s.byteAt Reg.tccr0b).toNat % 8 ∈ [0, 6, 7] → exec (.step n) s = .next s) ∧
      ∀ i ∈ [Instr.tccr0bCs0 n, .tccr0bCs6 n, .tccr0bCs7 n], exec i s = .next s

/-- STEP n, and the branch of its row, under a running clock select with divider d: with sum = acc + n the counter
advances by sum / d and wraps at 256, acc keeps sum mod d, TOV is set if the counter wrapped, the trace gains the
notifications of each tick, and nothing else changes (R110, R112, R114; the closed form is marked derived in the spec,
the tick count is decision D12). -/
def Obligations.RunningStepClosedForm : Prop :=
  ∀ (s : State) (n : Nat), s.Running →
    ∀ x ∈ [(1, 1, Instr.tccr0bCs1 n), (2, 8, .tccr0bCs2 n), (3, 64, .tccr0bCs3 n), (4, 256, .tccr0bCs4 n),
      (5, 1024, .tccr0bCs5 n)],
    (s.byteAt Reg.tccr0b).toNat % 8 = x.1 → ∀ i ∈ [Instr.step n, x.2.2],
      ∃ t, exec i s = .next t ∧ t.acc = (s.acc + n) % x.2.1 ∧
        s.StoresOnly t
          [(Reg.tcnt0, BitVec.ofNat 8 ((s.byteAt Reg.tcnt0).toNat + (s.acc + n) / x.2.1)),
            (Reg.tifr0, if 256 ≤ (s.byteAt Reg.tcnt0).toNat + (s.acc + n) / x.2.1
              then s.byteAt Reg.tifr0 ||| 1#8 <<< Bit.tov else s.byteAt Reg.tifr0)] ∧
        t.trace = s.trace ++ tickEvents ((s.acc + n) / x.2.1) (s.byteAt Reg.tcnt0) (s.byteAt Reg.tifr0) ∧
        t.eeprom = s.eeprom ∧ t.ain = s.ain ∧ t.dac = s.dac ∧ t.fault = s.fault ∧ t.answers = s.answers ∧
        t.inbox = s.inbox

/-- A running STEP n under divider d, with sum = acc + n, adds to the trace one MemChange at TCNT0 for each of its sum / d
ticks, one at TIFR0 for each of their wraps, (TCNT0 + sum / d) / 256, and no other event (R114, marked derived in the
spec; the tick count is decision D12). -/
def Obligations.TickEventCounts : Prop :=
  ∀ (s : State) (n : Nat), s.Running → ∀ x ∈ [(1, 1), (2, 8), (3, 64), (4, 256), (5, 1024)],
    (s.byteAt Reg.tccr0b).toNat % 8 = x.1 →
      ∃ t es, exec (.step n) s = .next t ∧ t.trace = s.trace ++ es ∧
        changesAt Reg.tcnt0 es = (s.acc + n) / x.2 ∧
        changesAt Reg.tifr0 es = ((s.byteAt Reg.tcnt0).toNat + (s.acc + n) / x.2) / 256 ∧
        es.length = changesAt Reg.tcnt0 es + changesAt Reg.tifr0 es

/-- Two STEPs one after another do what one STEP of the sum of their cycles does, whatever the clock select and the
accumulator: no split of the cycles shows (R117 "for every split", marked derived in the spec; R112). -/
def Obligations.StepsAddUp : Prop :=
  ∀ (s t : State) (n m : Nat), exec (.step n) s = .next t → exec (.step m) t = exec (.step (n + m)) s

/-- From acc = 0, TCNT0 = 0 and TOV = 0, 256 dividers' worth of cycles return the counter to 0, set TOV, notify TIFR0
exactly once and leave acc 0 (R117, marked derived in the spec). -/
def Obligations.OverflowAfter256Dividers : Prop :=
  ∀ s : State, s.Running → ∀ x ∈ [(1, 1), (2, 8), (3, 64), (4, 256), (5, 1024)],
    (s.byteAt Reg.tccr0b).toNat % 8 = x.1 → s.acc = 0 → s.byteAt Reg.tcnt0 = 0#8 →
    bitOf (s.byteAt Reg.tifr0) Bit.tov = false →
      ∃ t es, exec (.step (256 * x.2)) s = .next t ∧ t.byteAt Reg.tcnt0 = 0#8 ∧
        bitOf (t.byteAt Reg.tifr0) Bit.tov = true ∧ t.acc = 0 ∧ t.trace = s.trace ++ es ∧
        changesAt Reg.tifr0 es = 1

/-! The EEPROM (42_eeprom.md). -/

/-- WRITE EECR, v by the eight combinations of its command bits: what E, EEDR and EECR hold after, the order of the
notifications, and that nothing else changes (R78, R134, R136, marked derived in the spec; decision D15). -/
def Obligations.WriteEecrCommandTable : Prop :=
  ∀ (s : State) (v : Byte), s.Running →
    ∃ t, exec (.writeEecr v) s = .next t ∧
      (∀ b, t.eeByteAt b =
        if b = eepromAddr s ∧ bitOf v Bit.eewe = true ∧ bitOf v Bit.eemwe = true ∧ bitOf v Bit.eere = false
        then s.byteAt Reg.eedr else s.eeByteAt b) ∧
      s.StoresOnly t
        [(Reg.eedr, if bitOf v Bit.eere then s.eeByteAt (eepromAddr s) else s.byteAt Reg.eedr),
          (Reg.eecr, eecrAfter v)] ∧
      t.trace = s.trace ++ [.memChange Reg.eecr (s.byteAt Reg.eecr) v] ++
        eecrEvents v (s.byteAt Reg.eedr) (s.eeByteAt (eepromAddr s)) ∧
      t.acc = s.acc ∧ t.ain = s.ain ∧ t.dac = s.dac ∧ t.fault = s.fault ∧ t.answers = s.answers ∧ t.inbox = s.inbox

/-- The read branch, where EERE is set: the addressed byte goes to EEDR, then EERE is cleared and every other bit of
EECR kept; E is unchanged (R132). Where EEWE is set too, the nested update its EECR write runs clears the write command
as `eecrAfter` and `eecrEvents` say (R136, marked derived in the spec; decision D15, log entry 17). That the branch runs
as an instruction of its own, from any state with EERE set, is log entry 15. -/
def Obligations.ReadBranchCopiesTheByte : Prop :=
  ∀ s : State, s.Running → bitOf (s.byteAt Reg.eecr) Bit.eere = true →
    ∃ t, exec .eecrRead s = .next t ∧ (∀ b, t.eeByteAt b = s.eeByteAt b) ∧
      s.StoresOnly t [(Reg.eedr, s.eeByteAt (eepromAddr s)), (Reg.eecr, eecrAfter (s.byteAt Reg.eecr))] ∧
      (bitOf (s.byteAt Reg.eecr) Bit.eewe = false →
        t.byteAt Reg.eecr = s.byteAt Reg.eecr &&& ~~~(1#8 <<< Bit.eere)) ∧
      t.trace = s.trace ++ eecrEvents (s.byteAt Reg.eecr) (s.byteAt Reg.eedr) (s.eeByteAt (eepromAddr s)) ∧
      t.acc = s.acc ∧ t.ain = s.ain ∧ t.dac = s.dac ∧ t.fault = s.fault ∧ t.answers = s.answers ∧ t.inbox = s.inbox

/-- The write branch. With EEWE and EEMWE set, the data register goes to the addressed byte of E and both bits are
cleared in one write; with EEMWE clear the write is dropped, EEWE is cleared and E is unchanged (R133). The update comes
to this branch with EERE clear; as an instruction of its own (log entry 15) the branch also runs where EERE is set, and
then its write of EECR runs a nested update, which copies the addressed byte to EEDR and clears EERE (R98, R132). -/
def Obligations.WriteBranchNeedsTheGate : Prop :=
  ∀ (s : State) (v d : Byte), s.Running → s.byteAt Reg.eecr = v → s.byteAt Reg.eedr = d → bitOf v Bit.eewe = true →
    (bitOf v Bit.eemwe = true →
      ∃ t v1, exec .eecrWrite s = .next t ∧ v1 = v &&& ~~~(1#8 <<< Bit.eewe ||| 1#8 <<< Bit.eemwe) ∧
        (∀ b, t.eeByteAt b = if b = eepromAddr s then d else s.eeByteAt b) ∧
        s.StoresOnly t [(Reg.eecr, if bitOf v Bit.eere then v1 &&& ~~~(1#8 <<< Bit.eere) else v1)] ∧
        t.trace = s.trace ++ .memChange Reg.eecr v v1 ::
          (if bitOf v Bit.eere then
            [.memChange Reg.eedr d d, .memChange Reg.eecr v1 (v1 &&& ~~~(1#8 <<< Bit.eere))] else []) ∧
        t.acc = s.acc ∧ t.ain = s.ain ∧ t.dac = s.dac ∧ t.fault = s.fault ∧ t.answers = s.answers ∧
        t.inbox = s.inbox) ∧
      (bitOf v Bit.eemwe = false →
        ∃ t v1 x, exec .eecrWriteDropped s = .next t ∧ v1 = v &&& ~~~(1#8 <<< Bit.eewe) ∧
          x = s.eeByteAt (eepromAddr s) ∧
          s.StoresOnly t
            (if bitOf v Bit.eere then [(Reg.eedr, x), (Reg.eecr, v1 &&& ~~~(1#8 <<< Bit.eere))]
              else [(Reg.eecr, v1)]) ∧
          t.trace = s.trace ++ .memChange Reg.eecr v v1 ::
            (if bitOf v Bit.eere then
              [.memChange Reg.eedr d x, .memChange Reg.eecr v1 (v1 &&& ~~~(1#8 <<< Bit.eere))] else []) ∧
          s.SameBesidesMem t)

/-- The source's two properties: a bare write-enable leaves E unchanged and clears only EEWE; with gate and write-enable
set, the addressed byte of E takes the prior data register and both bits are cleared; both with EERE clear in v, and
with EERE set EERE is cleared too (R135). -/
def Obligations.BareWriteEnableIsDropped : Prop :=
  ∀ (s : State) (v : Byte), s.Running → bitOf v Bit.eewe = true →
    ∃ t, exec (.writeEecr v) s = .next t ∧
      (bitOf v Bit.eemwe = false → ∀ b, t.eeByteAt b = s.eeByteAt b) ∧
      (bitOf v Bit.eemwe = false → bitOf v Bit.eere = false → t.byteAt Reg.eecr = v &&& ~~~(1#8 <<< Bit.eewe)) ∧
      (bitOf v Bit.eemwe = true → bitOf v Bit.eere = false →
        t.eeByteAt (eepromAddr s) = s.byteAt Reg.eedr ∧
          t.byteAt Reg.eecr = v &&& ~~~(1#8 <<< Bit.eewe ||| 1#8 <<< Bit.eemwe)) ∧
      (bitOf v Bit.eere = true → bitOf (t.byteAt Reg.eecr) Bit.eere = false)

/-- The gate alone stays armed: the command does nothing, and a WRITE EECR that sets EEMWE without EERE and EEWE leaves
its byte in EECR and E as it was (R138, decision D32: no timeout). -/
def Obligations.GateStaysArmed : Prop :=
  ∀ (s : State) (v : Byte), s.Running →
    exec .eecrGateOnly s = .next s ∧
      (bitOf v Bit.eemwe = true → bitOf v Bit.eere = false → bitOf v Bit.eewe = false →
        ∃ t, exec (.writeEecr v) s = .next t ∧ t.byteAt Reg.eecr = v ∧ t.eeprom = s.eeprom)

/-- The EEPROM address is EEARH:EEARL modulo the image's size, so no EEPROM access is out of bounds; a configuration
whose size is no power of two is refused (R137; the size 1024 and the refusal are decision D8). -/
def Obligations.EepromAddressWraps : Prop :=
  (∀ s : State, eepromAddr s =
      ((s.byteAt Reg.eearh).toNat * 256 + (s.byteAt Reg.eearl).toNat) % Param.eeSize ∧
    eepromAddr s < Param.eeSize) ∧
    ∀ (size : Nat) (pre : List Byte), (∀ k, size ≠ 2 ^ k) → eepromInit size pre = .error (.badEepromSize size)

/-- What a gated write stored, a later read command brings back to EEDR, whatever EEDR held in between (R132, R133;
L3 P1; the order of the branches is decision D15). -/
def Obligations.EepromWriteThenRead : Prop :=
  ∀ (s s1 s2 s3 : State) (v w d : Byte), bitOf v Bit.eewe = true → bitOf v Bit.eemwe = true →
    bitOf v Bit.eere = false → bitOf w Bit.eere = true →
    exec (.writeEecr v) s = .next s1 → exec (.write Reg.eedr d) s1 = .next s2 → exec (.writeEecr w) s2 = .next s3 →
      s3.byteAt Reg.eedr = s.byteAt Reg.eedr

/-! The ADC (43_adc.md). -/

/-- The quantizer: 0 at or below 0 V, 1023 at or above 5 V, monotone, within half a step of clamp(v) * 1023 / 5, and
even at an exact tie (R151, whose properties are marked derived in the spec; ties and exact arithmetic are decision
D16). -/
def Obligations.QuantizerProperties : Prop :=
  (∀ v : Rat, v ≤ 0 → adcQuant v = 0) ∧ (∀ v : Rat, 5 ≤ v → adcQuant v = 1023) ∧
    (∀ v w : Rat, v ≤ w → adcQuant v ≤ adcQuant w) ∧
    (∀ v : Rat, |(adcQuant v : Rat) - min (max v 0) 5 * 1023 / 5| ≤ 1 / 2) ∧
    ∀ (v : Rat) (k : Nat), min (max v 0) 5 * 1023 / 5 = (k : Rat) + 1 / 2 → adcQuant v % 2 = 0

/-- A WRITE ADCSRA with ADSC set converts: with r the quantized input, both data bytes are written in the layout ADLAR
selects, then ADCSRA in one write with ADIF set, ADSC clear and the other bits kept (R152, R153); the order is ADCL,
ADCH, ADCSRA (R150, decision D31, log entry 24) and nothing else changes. That r is the exact quantizer's is decision
D16, log entry 7. -/
def Obligations.ConversionStoresTheResult : Prop :=
  ∀ (s : State) (v : Byte), s.Running → bitOf v Bit.adsc = true →
    ∃ t lo hi, exec (.writeAdcsra v) s = .next t ∧ adcQuant s.ain ≤ 1023 ∧
      (bitOf (s.byteAt Reg.admux) Bit.adlar = true →
        lo = BitVec.ofNat 8 (adcQuant s.ain * 64) ∧ hi = BitVec.ofNat 8 (adcQuant s.ain / 4)) ∧
      (bitOf (s.byteAt Reg.admux) Bit.adlar = false →
        lo = BitVec.ofNat 8 (adcQuant s.ain) ∧ hi = BitVec.ofNat 8 (adcQuant s.ain / 256)) ∧
      s.StoresOnly t
        [(Reg.adcl, lo), (Reg.adch, hi), (Reg.adcsra, (v ||| 1#8 <<< Bit.adif) &&& ~~~(1#8 <<< Bit.adsc))] ∧
      t.trace = s.trace ++
        [.memChange Reg.adcsra (s.byteAt Reg.adcsra) v, .memChange Reg.adcl (s.byteAt Reg.adcl) lo,
          .memChange Reg.adch (s.byteAt Reg.adch) hi,
          .memChange Reg.adcsra v ((v ||| 1#8 <<< Bit.adif) &&& ~~~(1#8 <<< Bit.adsc))] ∧
      s.SameBesidesMem t

/-- With ADSC clear no conversion runs: a WRITE ADCSRA stores and notifies its byte alone, and ADCSRA.NOSTART changes
nothing (R150; that no other bit starts one is decision D31). -/
def Obligations.NoStartNoConversion : Prop :=
  ∀ (s : State) (v : Byte), s.Running →
    exec .adcsraNostart s = .next s ∧
      (bitOf v Bit.adsc = false →
        ∃ t, exec (.writeAdcsra v) s = .next t ∧ s.StoresOnly t [(Reg.adcsra, v)] ∧
          t.trace = s.trace ++ [.memChange Reg.adcsra (s.byteAt Reg.adcsra) v] ∧ s.SameBesidesMem t)

/-- ADCSRA.START, where ADSC is set, is the conversion of the live input; ADMUX.LEFT and ADMUX.RIGHT, where ADLAR is set
or clear, store a result r in their layout, ADCL first (R150, R152; R85 and log entry 15 for the commands; the order is
decision D31, log entry 24, and the quantizer decision D16, log entry 7). -/
def Obligations.AdcCommandsStoreTheResult : Prop :=
  ∀ s : State, s.Running →
    (bitOf (s.byteAt Reg.adcsra) Bit.adsc = true →
      ∃ t lo hi, exec .adcsraStart s = .next t ∧
        (lo, hi) = (if bitOf (s.byteAt Reg.admux) Bit.adlar
          then (BitVec.ofNat 8 (adcQuant s.ain * 64), BitVec.ofNat 8 (adcQuant s.ain / 4))
          else (BitVec.ofNat 8 (adcQuant s.ain), BitVec.ofNat 8 (adcQuant s.ain / 256))) ∧
        s.StoresOnly t
          [(Reg.adcl, lo), (Reg.adch, hi),
            (Reg.adcsra, (s.byteAt Reg.adcsra ||| 1#8 <<< Bit.adif) &&& ~~~(1#8 <<< Bit.adsc))] ∧
        t.trace = s.trace ++
          [.memChange Reg.adcl (s.byteAt Reg.adcl) lo, .memChange Reg.adch (s.byteAt Reg.adch) hi,
            .memChange Reg.adcsra (s.byteAt Reg.adcsra)
              ((s.byteAt Reg.adcsra ||| 1#8 <<< Bit.adif) &&& ~~~(1#8 <<< Bit.adsc))] ∧
        s.SameBesidesMem t) ∧
      ∀ r : BitVec 10, ∀ x ∈ [(Instr.admuxLeft r, true, BitVec.ofNat 8 (r.toNat * 64), BitVec.ofNat 8 (r.toNat / 4)),
          (.admuxRight r, false, BitVec.ofNat 8 r.toNat, BitVec.ofNat 8 (r.toNat / 256))],
        bitOf (s.byteAt Reg.admux) Bit.adlar = x.2.1 →
          ∃ t, exec x.1 s = .next t ∧ s.StoresOnly t [(Reg.adcl, x.2.2.1), (Reg.adch, x.2.2.2)] ∧
            t.trace = s.trace ++
              [.memChange Reg.adcl (s.byteAt Reg.adcl) x.2.2.1, .memChange Reg.adch (s.byteAt Reg.adch) x.2.2.2] ∧
            s.SameBesidesMem t

/-- The source's three examples on WRITE ADCSRA, 0x40: 5 V right-adjusted gives (0xFF, 0x03), 0 V gives (0x00, 0x00) in
either layout, 5 V left-adjusted gives (0xC0, 0xFF), where the spec corrects the source's "top 6 bits" (R156;
90_conflicts.md C2 is the spec's own resolution; the quantizer is decision D16, log entry 7). -/
def Obligations.AdcSourceExamples : Prop :=
  ∀ s : State, s.Running → ∃ t, exec (.writeAdcsra 0x40#8) s = .next t ∧
    (s.ain = 5 → bitOf (s.byteAt Reg.admux) Bit.adlar = false →
      t.byteAt Reg.adcl = 0xFF#8 ∧ t.byteAt Reg.adch = 0x03#8) ∧
    (s.ain = 0 → t.byteAt Reg.adcl = 0x00#8 ∧ t.byteAt Reg.adch = 0x00#8) ∧
    (s.ain = 5 → bitOf (s.byteAt Reg.admux) Bit.adlar = true →
        t.byteAt Reg.adcl = 0xC0#8 ∧ t.byteAt Reg.adch = 0xFF#8)

/-- SETAIN sets the analog input to any rational and changes nothing else (R154; the exact rational is decision D16). -/
def Obligations.SetainSetsTheInput : Prop :=
  ∀ (s : State) (v : Rat), s.Running → exec (.setain v) s = .next { s with ain := v }

/-! The UART (44_uart.md). -/

/-- WRITE UDR0 stores the byte; with TXEN set it also emits exactly one byte event and then sets TXC and UDRE in one
write, the other bits of UCSR0A kept; with TXEN clear it emits no byte event; nothing else changes (R170, R175). -/
def Obligations.TransmitNeedsTxen : Prop :=
  ∀ (s : State) (d : Byte), s.Running →
    (bitOf (s.byteAt Reg.ucsr0b) Bit.txen = true →
      ∃ t, exec (.writeUdr0 d) s = .next t ∧
        s.StoresOnly t
          [(Reg.udr0, d), (Reg.ucsr0a, s.byteAt Reg.ucsr0a ||| 1#8 <<< Bit.txc ||| 1#8 <<< Bit.udre)] ∧
        t.trace = s.trace ++
          [.memChange Reg.udr0 (s.byteAt Reg.udr0) d, .uartTx d,
            .memChange Reg.ucsr0a (s.byteAt Reg.ucsr0a)
              (s.byteAt Reg.ucsr0a ||| 1#8 <<< Bit.txc ||| 1#8 <<< Bit.udre)] ∧
        s.SameBesidesMem t) ∧
      (bitOf (s.byteAt Reg.ucsr0b) Bit.txen = false →
        ∃ t, exec (.writeUdr0 d) s = .next t ∧ s.StoresOnly t [(Reg.udr0, d)] ∧
          t.trace = s.trace ++ [.memChange Reg.udr0 (s.byteAt Reg.udr0) d] ∧ s.SameBesidesMem t)

/-- UCSR0B.TXEN, where TXEN is set, emits the byte event and sets TXC and UDRE; UCSR0B.TXOFF changes nothing (R170;
R85 and log entry 15 for the commands). -/
def Obligations.TransmitCommands : Prop :=
  ∀ (s : State) (b : Byte), s.Running →
    exec (.ucsr0bTxoff b) s = .next s ∧
      (bitOf (s.byteAt Reg.ucsr0b) Bit.txen = true →
        ∃ t, exec (.ucsr0bTxen b) s = .next t ∧
          s.StoresOnly t [(Reg.ucsr0a, s.byteAt Reg.ucsr0a ||| 1#8 <<< Bit.txc ||| 1#8 <<< Bit.udre)] ∧
          t.trace = s.trace ++
            [.uartTx b, .memChange Reg.ucsr0a (s.byteAt Reg.ucsr0a)
              (s.byteAt Reg.ucsr0a ||| 1#8 <<< Bit.txc ||| 1#8 <<< Bit.udre)] ∧
          s.SameBesidesMem t)

/-- RXINJ b and UCSR0B.RXEN, with RXEN set: UDR0 takes the byte; with TXEN clear RXC alone is set; with TXEN set the
byte is first echoed through the transmit hook, which sets TXC and UDRE, and then RXC is set (R172, R173; the echo is
decision D22, log entry 11). -/
def Obligations.ReceiveStoresAndEchoes : Prop :=
  ∀ (s : State) (b : Byte), s.Running → bitOf (s.byteAt Reg.ucsr0b) Bit.rxen = true →
    ∀ i ∈ [Instr.rxinj b, .ucsr0bRxen b],
      (bitOf (s.byteAt Reg.ucsr0b) Bit.txen = false →
        ∃ t, exec i s = .next t ∧
          s.StoresOnly t [(Reg.udr0, b), (Reg.ucsr0a, s.byteAt Reg.ucsr0a ||| 1#8 <<< Bit.rxc)] ∧
          t.trace = s.trace ++
            [.memChange Reg.udr0 (s.byteAt Reg.udr0) b,
              .memChange Reg.ucsr0a (s.byteAt Reg.ucsr0a) (s.byteAt Reg.ucsr0a ||| 1#8 <<< Bit.rxc)] ∧
          s.SameBesidesMem t) ∧
        (bitOf (s.byteAt Reg.ucsr0b) Bit.txen = true →
          ∃ t f, exec i s = .next t ∧ f = s.byteAt Reg.ucsr0a ||| 1#8 <<< Bit.txc ||| 1#8 <<< Bit.udre ∧
            s.StoresOnly t [(Reg.udr0, b), (Reg.ucsr0a, f ||| 1#8 <<< Bit.rxc)] ∧
            t.trace = s.trace ++
              [.memChange Reg.udr0 (s.byteAt Reg.udr0) b, .uartTx b,
                .memChange Reg.ucsr0a (s.byteAt Reg.ucsr0a) f, .memChange Reg.ucsr0a f (f ||| 1#8 <<< Bit.rxc)] ∧
            s.SameBesidesMem t)

/-- With RXEN clear the injected byte is dropped: nothing changes; UCSR0B.RXOFF changes nothing (R172). -/
def Obligations.ReceiveDroppedWithoutRxen : Prop :=
  ∀ (s : State) (b : Byte), s.Running →
    exec (.ucsr0bRxoff b) s = .next s ∧
      (bitOf (s.byteAt Reg.ucsr0b) Bit.rxen = false → exec (.rxinj b) s = .next s)

/-! GPIO (45_gpio.md). -/

/-- A WRITE of PINp or PORTp stores its byte, and emits the port event and, where the byte changed, one event for every
pin of the port by ascending mask, changed or not; nothing else changes (R191; the pins of each port and the order of
the events are decision D18). -/
def Obligations.PortWriteFansOut : Prop :=
  ∀ (s : State) (d : Byte), s.Running →
    ∀ x ∈ [(Instr.writePinb d, Port.B, Reg.pinb, 8), (.writePortb d, .B, Reg.portb, 8),
      (.writePinc d, .C, Reg.pinc, 7), (.writePortc d, .C, Reg.portc, 7), (.writePind d, .D, Reg.pind, 8),
      (.writePortd d, .D, Reg.portd, 8)],
    ∃ t, exec x.1 s = .next t ∧ s.StoresOnly t [(x.2.2.1, d)] ∧
      t.trace = s.trace ++
        [.memChange x.2.2.1 (s.byteAt x.2.2.1) d, .portChange x.2.1 (s.byteAt x.2.2.1) d] ++
        (if s.byteAt x.2.2.1 = d then []
          else (List.range x.2.2.2).map fun k =>
            .pinChange x.2.1 (1#8 <<< k) ((s.byteAt x.2.2.1).getLsbD k) (d.getLsbD k)) ∧
      s.SameBesidesMem t

/-- The source's property: toggling bit 0x20 of PORTB from 0 to 1 raises one port event and exactly 8 pin events, one for
each pin of port B, PB5's with old = false and new = true and all others with old = new (R196; the order of the events is
`PortWriteFansOut`'s). A pin event is given by its mask, its old and its new bit. -/
def Obligations.TogglingPb5RaisesNineEvents : Prop :=
  ∀ s : State, s.Running → bitOf (s.byteAt Reg.portb) 5 = false →
    ∃ (t : State) (es : List Event) (pins : List (Byte × Bool × Bool)),
      exec (.writePortb (s.byteAt Reg.portb ||| 0x20#8)) s = .next t ∧
      t.trace.filter Event.hostVisible = s.trace.filter Event.hostVisible ++ es ∧
      es.Perm (.portChange .B (s.byteAt Reg.portb) (s.byteAt Reg.portb ||| 0x20#8) ::
        pins.map fun p => .pinChange .B p.1 p.2.1 p.2.2) ∧
      pins.length = 8 ∧ (pins.map (·.1)).Perm (pinMasks .B) ∧
      ∀ p ∈ pins, (p.1 = 0x20#8 → p.2 = (false, true)) ∧ (p.1 ≠ 0x20#8 → p.2.1 = p.2.2)

/-- The pin views are the bits of the live DDR, PORT and PIN registers (R194). -/
def Obligations.PinViewsAreRegisterBits : Prop :=
  ∀ (s : State) (k : Nat), k < 8 →
    ∀ x ∈ [(Port.B, 0x24, 0x25, 0x23), (.C, 0x27, 0x28, 0x26), (.D, 0x2A, 0x2B, 0x29)],
      pinDirection s x.1 (1#8 <<< k) = (s.byteAt x.2.1).getLsbD k ∧
        pinOutput s x.1 (1#8 <<< k) = (s.byteAt x.2.2.1).getLsbD k ∧
        pinInput s x.1 (1#8 <<< k) = (s.byteAt x.2.2.2).getLsbD k

/-! Faults and flags (60_exceptions.md; 10_state.md R45). -/

/-- A READ or WRITE at an offset outside the buffer records the offset in the fault mark and changes nothing else (R210,
decision D24; the recording as a next state is log entry 1). -/
def Obligations.OutOfBoundsIsRecorded : Prop :=
  ∀ (s : State) (a : Nat) (d : Byte), s.Running → Param.memSize ≤ a →
    exec (.read a) s = .next { s with fault := some a } ∧ exec (.write a d) s = .next { s with fault := some a }

/-- A state with the fault mark set takes no further transaction: every instruction and the step stop with the recorded
fault (R44, R214, decision D24; log entry 1). -/
def Obligations.FaultedStateStops : Prop :=
  ∀ (s : State) (a : Nat), s.fault = some a →
    step s = .fault (.outOfBounds a) ∧ ∀ i : Instr, exec i s = .fault (.outOfBounds a)

/-- In a state with no fault mark every instruction completes in a next state, and only a READ or WRITE outside the
buffer sets the mark: nothing else faults (R211, R82; log entry 1 for the form of the fault). -/
def Obligations.NothingElseFaults : Prop :=
  ∀ (i : Instr) (s : State), s.Running →
    ∃ t, exec i s = .next t ∧
      (t.fault = none ∨ ∃ a, Param.memSize ≤ a ∧ t.fault = some a ∧ (i = .read a ∨ ∃ d, i = .write a d))

/-- TOV, ADIF, RXC, TXC and UDRE stay set under every instruction that is no WRITE of their register: the block never
clears one (R45, R213; decision D20). -/
def Obligations.FlagsAreClearedOnlyByWrites : Prop :=
  ∀ (i : Instr) (s t : State), exec i s = .next t →
    ∀ x ∈ [(Reg.tifr0, Bit.tov), (Reg.adcsra, Bit.adif), (Reg.ucsr0a, Bit.rxc), (Reg.ucsr0a, Bit.txc),
      (Reg.ucsr0a, Bit.udre)],
    i.writeTarget ≠ some x.1 → bitOf (s.byteAt x.1) x.2 = true → bitOf (t.byteAt x.1) x.2 = true

/-- Apart from a WRITE of the flag's own register, TOV is set only by the timer, ADIF only by a conversion, RXC only by
a receive, TXC and UDRE only by a transmit, a receive's echo included (R45). -/
def Obligations.FlagsHaveTheirSetters : Prop :=
  ∀ (i : Instr) (s t : State), exec i s = .next t →
    (i.writeTarget ≠ some Reg.tifr0 → bitOf (s.byteAt Reg.tifr0) Bit.tov = false →
      bitOf (t.byteAt Reg.tifr0) Bit.tov = true → i.stepsTimer = true) ∧
      (i.writeTarget ≠ some Reg.adcsra → bitOf (s.byteAt Reg.adcsra) Bit.adif = false →
        bitOf (t.byteAt Reg.adcsra) Bit.adif = true → i = .adcsraStart) ∧
      (i.writeTarget ≠ some Reg.ucsr0a → bitOf (s.byteAt Reg.ucsr0a) Bit.rxc = false →
        bitOf (t.byteAt Reg.ucsr0a) Bit.rxc = true → ∃ b, i = .rxinj b ∨ i = .ucsr0bRxen b) ∧
      ∀ f ∈ [Bit.txc, Bit.udre], i.writeTarget ≠ some Reg.ucsr0a → bitOf (s.byteAt Reg.ucsr0a) f = false →
        bitOf (t.byteAt Reg.ucsr0a) f = true →
        i.writeTarget = some Reg.udr0 ∨ ∃ b, i = .rxinj b ∨ i = .ucsr0bRxen b ∨ i = .ucsr0bTxen b

/-! Reset (70_reset_and_hazards.md; 10_state.md R49). -/

/-- Right after reset UCSR0A holds UDRE, every other byte of M is 0, every byte of E is its free EE_INIT, acc, ain and
dac are 0, and trace and fault are empty (R49, R240; all but UDRE are the spec's decisions D9, D10, D11, D17, D24, D30).
That no transaction waits and none was answered is the model's choice, log entries 2 and 3. -/
def Obligations.ResetLeavesTheStatedValues : Prop :=
  State.reset.byteAt 0xC0 = 0x20#8 ∧ (∀ a, a ≠ 0xC0 → State.reset.byteAt a = 0#8) ∧
    (∀ a, State.reset.eeByteAt a = Config.eeInit a) ∧ State.reset.acc = 0 ∧ State.reset.ain = 0 ∧
    State.reset.dac = 0#8 ∧ State.reset.trace = [] ∧ State.reset.fault = none ∧ State.reset.answers = [] ∧
    State.reset.inbox = []

/-- Construction with a preinit buffer: refused where the buffer is longer than the image; else E holds the buffer's
bytes and then EE_INIT, everything else is as after reset, and E is in canonical form (R241, R240; decisions D8, D9). -/
def Obligations.ConstructionTakesThePreinitBuffer : Prop :=
  (∀ pre : List Byte, Param.eeSize < pre.length → construct pre = .error (.preinitTooLong pre.length)) ∧
    ∀ pre : List Byte, pre.length ≤ Param.eeSize →
      ∃ s, construct pre = .ok s ∧ { s with eeprom := [] } = State.reset ∧ Eeprom.wf s.eeprom = true ∧
        ∀ a, s.eeByteAt a = if h : a < pre.length then pre[a] else Config.eeInit a

/-! Invariants. -/

/-- The invariant holds right after reset (R49; it rests on the decided reset values D10, D11, D17). -/
def Obligations.ResetMeetsTheInvariant : Prop := State.reset.Inv

/-- Every step keeps the invariant: M and E canonical, acc at most 1023, dac equal to the byte at 0xFE, event payloads
and the fault mark in range (R22, R39, R40, R43, R44, R97; R40's bound and R97 are marked derived in the spec). -/
def Obligations.StepKeepsTheInvariant : Prop :=
  ∀ s t : State, s.Inv → step s = .next t → t.Inv

/-- Right after reset every byte of M is what the empty trace says: its reset byte (R49, R58). -/
def Obligations.ResetMatchesItsTrace : Prop := State.reset.MatchesTrace

/-- Every step keeps each byte of M what the last MemChange at its offset stored: a byte is what the last MemWrite to it
stored, from the executor, from an update or from reset, and no store goes unnotified (R58, R92, R93). -/
def Obligations.StepKeepsMemoryMatchingTheTrace : Prop :=
  ∀ s t : State, s.MatchesTrace → step s = .next t → t.MatchesTrace

/-- A step only appends: the events and the answers so far are kept, in order (R43; log entry 3). -/
def Obligations.StepOnlyAppendsToTheTrace : Prop :=
  ∀ s t : State, step s = .next t →
    ∃ es xs, t.trace = s.trace ++ es ∧ t.answers = s.answers ++ xs
end

