-- ==== Sys2Proof/Laws/Flags.lean ====
section
/-! SUPPORT. What setting and clearing a bit does to each bit of a byte. -/

namespace Sys2Proof.Machine

theorem bitOf_mask {i j : Nat} (hj : j < 8) : bitOf (Bit.mask i) j = decide (i = j) := by
  simp only [bitOf, Bit.mask, BitVec.getLsbD_shiftLeft, BitVec.getLsbD_one, hj, decide_true, Bool.true_and]
  by_cases h : j < i
  · simp [h, show i ≠ j by omega]
  · by_cases h' : i = j
    · subst h'
      simp
    · simp [h, h', show j - i ≠ 0 by omega]

theorem bitOf_or (v w : Byte) (j : Nat) : bitOf (v ||| w) j = (bitOf v j || bitOf w j) := by
  simp [bitOf]

theorem bitOf_and_not (v w : Byte) {j : Nat} (hj : j < 8) : bitOf (v &&& ~~~w) j = (bitOf v j && !bitOf w j) := by
  simp [bitOf, hj]

theorem bitOf_withBit (v : Byte) (i : Nat) {j : Nat} (hj : j < 8) :
    bitOf (withBit v i) j = (bitOf v j || decide (i = j)) := by
  rw [withBit, bitOf_or, bitOf_mask hj]

theorem bitOf_withoutBit (v : Byte) (i : Nat) {j : Nat} (hj : j < 8) :
    bitOf (withoutBit v i) j = (bitOf v j && !decide (i = j)) := by
  rw [withoutBit, bitOf_and_not _ _ hj, bitOf_mask hj]

theorem bitOf_without2 (v : Byte) (h i : Nat) {j : Nat} (hj : j < 8) :
    bitOf (v &&& ~~~(Bit.mask h ||| Bit.mask i)) j = (bitOf v j && !decide (h = j) && !decide (i = j)) := by
  rw [bitOf_and_not _ _ hj, bitOf_or, bitOf_mask hj, bitOf_mask hj, Bool.not_or, Bool.and_assoc]

theorem bitOf_adcDone_adsc (v : Byte) : bitOf (adcDone v) Bit.adsc = false := by
  rw [adcDone, bitOf_withoutBit _ _ (by decide)]
  simp

end Sys2Proof.Machine
end

