-- ==== Sys2Proof/Laws/State.lean ====
section
/-! SUPPORT. One lemma per field per update of State, each true by rfl. -/

namespace Sys2Proof.Machine

@[simp] theorem State.emit_mem (s : State) (e : Event) : (s.emit e).mem = s.mem := rfl
@[simp] theorem State.emit_eeprom (s : State) (e : Event) : (s.emit e).eeprom = s.eeprom := rfl
@[simp] theorem State.emit_acc (s : State) (e : Event) : (s.emit e).acc = s.acc := rfl
@[simp] theorem State.emit_ain (s : State) (e : Event) : (s.emit e).ain = s.ain := rfl
@[simp] theorem State.emit_dac (s : State) (e : Event) : (s.emit e).dac = s.dac := rfl
@[simp] theorem State.emit_trace (s : State) (e : Event) : (s.emit e).trace = s.trace ++ [e] := rfl
@[simp] theorem State.emit_fault (s : State) (e : Event) : (s.emit e).fault = s.fault := rfl
@[simp] theorem State.emit_answers (s : State) (e : Event) : (s.emit e).answers = s.answers := rfl
@[simp] theorem State.emit_inbox (s : State) (e : Event) : (s.emit e).inbox = s.inbox := rfl

@[simp] theorem State.emitAll_mem (s : State) (es : List Event) : (s.emitAll es).mem = s.mem := rfl
@[simp] theorem State.emitAll_eeprom (s : State) (es : List Event) : (s.emitAll es).eeprom = s.eeprom := rfl
@[simp] theorem State.emitAll_acc (s : State) (es : List Event) : (s.emitAll es).acc = s.acc := rfl
@[simp] theorem State.emitAll_ain (s : State) (es : List Event) : (s.emitAll es).ain = s.ain := rfl
@[simp] theorem State.emitAll_dac (s : State) (es : List Event) : (s.emitAll es).dac = s.dac := rfl
@[simp] theorem State.emitAll_trace (s : State) (es : List Event) : (s.emitAll es).trace = s.trace ++ es := rfl
@[simp] theorem State.emitAll_fault (s : State) (es : List Event) : (s.emitAll es).fault = s.fault := rfl
@[simp] theorem State.emitAll_answers (s : State) (es : List Event) : (s.emitAll es).answers = s.answers := rfl
@[simp] theorem State.emitAll_inbox (s : State) (es : List Event) : (s.emitAll es).inbox = s.inbox := rfl

@[simp] theorem State.answer_mem (s : State) (x : Answer) : (s.answer x).mem = s.mem := rfl
@[simp] theorem State.answer_eeprom (s : State) (x : Answer) : (s.answer x).eeprom = s.eeprom := rfl
@[simp] theorem State.answer_acc (s : State) (x : Answer) : (s.answer x).acc = s.acc := rfl
@[simp] theorem State.answer_ain (s : State) (x : Answer) : (s.answer x).ain = s.ain := rfl
@[simp] theorem State.answer_dac (s : State) (x : Answer) : (s.answer x).dac = s.dac := rfl
@[simp] theorem State.answer_trace (s : State) (x : Answer) : (s.answer x).trace = s.trace := rfl
@[simp] theorem State.answer_fault (s : State) (x : Answer) : (s.answer x).fault = s.fault := rfl
@[simp] theorem State.answer_answers (s : State) (x : Answer) : (s.answer x).answers = s.answers ++ [x] := rfl
@[simp] theorem State.answer_inbox (s : State) (x : Answer) : (s.answer x).inbox = s.inbox := rfl

@[simp] theorem State.record_mem (s : State) (a : Nat) (v : Byte) : (s.record a v).mem = memStore s.mem a v := rfl
@[simp] theorem State.record_eeprom (s : State) (a : Nat) (v : Byte) : (s.record a v).eeprom = s.eeprom := rfl
@[simp] theorem State.record_acc (s : State) (a : Nat) (v : Byte) : (s.record a v).acc = s.acc := rfl
@[simp] theorem State.record_ain (s : State) (a : Nat) (v : Byte) : (s.record a v).ain = s.ain := rfl
@[simp] theorem State.record_dac (s : State) (a : Nat) (v : Byte) : (s.record a v).dac = s.dac := rfl
@[simp] theorem State.record_trace (s : State) (a : Nat) (v : Byte) : (s.record a v).trace = s.trace ++ [.memChange a (s.byteAt a) v] := rfl
@[simp] theorem State.record_fault (s : State) (a : Nat) (v : Byte) : (s.record a v).fault = s.fault := rfl
@[simp] theorem State.record_answers (s : State) (a : Nat) (v : Byte) : (s.record a v).answers = s.answers := rfl
@[simp] theorem State.record_inbox (s : State) (a : Nat) (v : Byte) : (s.record a v).inbox = s.inbox := rfl

@[simp] theorem State.eeStore_mem (s : State) (a : Nat) (v : Byte) : (s.eeStore a v).mem = s.mem := rfl
@[simp] theorem State.eeStore_eeprom (s : State) (a : Nat) (v : Byte) : (s.eeStore a v).eeprom = putCell s.eeprom a v := rfl
@[simp] theorem State.eeStore_acc (s : State) (a : Nat) (v : Byte) : (s.eeStore a v).acc = s.acc := rfl
@[simp] theorem State.eeStore_ain (s : State) (a : Nat) (v : Byte) : (s.eeStore a v).ain = s.ain := rfl
@[simp] theorem State.eeStore_dac (s : State) (a : Nat) (v : Byte) : (s.eeStore a v).dac = s.dac := rfl
@[simp] theorem State.eeStore_trace (s : State) (a : Nat) (v : Byte) : (s.eeStore a v).trace = s.trace := rfl
@[simp] theorem State.eeStore_fault (s : State) (a : Nat) (v : Byte) : (s.eeStore a v).fault = s.fault := rfl
@[simp] theorem State.eeStore_answers (s : State) (a : Nat) (v : Byte) : (s.eeStore a v).answers = s.answers := rfl
@[simp] theorem State.eeStore_inbox (s : State) (a : Nat) (v : Byte) : (s.eeStore a v).inbox = s.inbox := rfl

@[simp] theorem State.raiseOutOfBounds_mem (s : State) (a : Nat) : (s.raiseOutOfBounds a).mem = s.mem := rfl
@[simp] theorem State.raiseOutOfBounds_eeprom (s : State) (a : Nat) : (s.raiseOutOfBounds a).eeprom = s.eeprom := rfl
@[simp] theorem State.raiseOutOfBounds_acc (s : State) (a : Nat) : (s.raiseOutOfBounds a).acc = s.acc := rfl
@[simp] theorem State.raiseOutOfBounds_ain (s : State) (a : Nat) : (s.raiseOutOfBounds a).ain = s.ain := rfl
@[simp] theorem State.raiseOutOfBounds_dac (s : State) (a : Nat) : (s.raiseOutOfBounds a).dac = s.dac := rfl
@[simp] theorem State.raiseOutOfBounds_trace (s : State) (a : Nat) : (s.raiseOutOfBounds a).trace = s.trace := rfl
@[simp] theorem State.raiseOutOfBounds_fault (s : State) (a : Nat) : (s.raiseOutOfBounds a).fault = some a := rfl
@[simp] theorem State.raiseOutOfBounds_answers (s : State) (a : Nat) : (s.raiseOutOfBounds a).answers = s.answers := rfl
@[simp] theorem State.raiseOutOfBounds_inbox (s : State) (a : Nat) : (s.raiseOutOfBounds a).inbox = s.inbox := rfl

@[simp] theorem State.issue_mem (s : State) (r : Request) : (s.issue r).mem = s.mem := rfl
@[simp] theorem State.issue_eeprom (s : State) (r : Request) : (s.issue r).eeprom = s.eeprom := rfl
@[simp] theorem State.issue_acc (s : State) (r : Request) : (s.issue r).acc = s.acc := rfl
@[simp] theorem State.issue_ain (s : State) (r : Request) : (s.issue r).ain = s.ain := rfl
@[simp] theorem State.issue_dac (s : State) (r : Request) : (s.issue r).dac = s.dac := rfl
@[simp] theorem State.issue_trace (s : State) (r : Request) : (s.issue r).trace = s.trace := rfl
@[simp] theorem State.issue_fault (s : State) (r : Request) : (s.issue r).fault = s.fault := rfl
@[simp] theorem State.issue_answers (s : State) (r : Request) : (s.issue r).answers = s.answers := rfl
@[simp] theorem State.issue_inbox (s : State) (r : Request) : (s.issue r).inbox = r :: s.inbox := rfl

@[simp] theorem dacLoad_mem (s : State) (v : Byte) : (dacLoad v s).mem = s.mem := rfl
@[simp] theorem dacLoad_eeprom (s : State) (v : Byte) : (dacLoad v s).eeprom = s.eeprom := rfl
@[simp] theorem dacLoad_acc (s : State) (v : Byte) : (dacLoad v s).acc = s.acc := rfl
@[simp] theorem dacLoad_ain (s : State) (v : Byte) : (dacLoad v s).ain = s.ain := rfl
@[simp] theorem dacLoad_dac (s : State) (v : Byte) : (dacLoad v s).dac = v := rfl
@[simp] theorem dacLoad_trace (s : State) (v : Byte) : (dacLoad v s).trace = s.trace := rfl
@[simp] theorem dacLoad_fault (s : State) (v : Byte) : (dacLoad v s).fault = s.fault := rfl
@[simp] theorem dacLoad_answers (s : State) (v : Byte) : (dacLoad v s).answers = s.answers := rfl
@[simp] theorem dacLoad_inbox (s : State) (v : Byte) : (dacLoad v s).inbox = s.inbox := rfl

/-! Reading a byte of M or of E after an update that stores none there. -/

@[simp] theorem State.emit_byteAt (s : State) (e : Event) (c : Nat) : (s.emit e).byteAt c = s.byteAt c := rfl
@[simp] theorem State.emit_eeByteAt (s : State) (e : Event) (c : Nat) : (s.emit e).eeByteAt c = s.eeByteAt c := rfl
@[simp] theorem State.emitAll_byteAt (s : State) (es : List Event) (c : Nat) : (s.emitAll es).byteAt c = s.byteAt c := rfl
@[simp] theorem State.emitAll_eeByteAt (s : State) (es : List Event) (c : Nat) : (s.emitAll es).eeByteAt c = s.eeByteAt c := rfl
@[simp] theorem State.answer_byteAt (s : State) (x : Answer) (c : Nat) : (s.answer x).byteAt c = s.byteAt c := rfl
@[simp] theorem State.answer_eeByteAt (s : State) (x : Answer) (c : Nat) : (s.answer x).eeByteAt c = s.eeByteAt c := rfl
@[simp] theorem State.record_eeByteAt (s : State) (a : Nat) (v : Byte) (c : Nat) : (s.record a v).eeByteAt c = s.eeByteAt c := rfl
@[simp] theorem State.eeStore_byteAt (s : State) (a : Nat) (v : Byte) (c : Nat) : (s.eeStore a v).byteAt c = s.byteAt c := rfl
@[simp] theorem State.raiseOutOfBounds_byteAt (s : State) (a : Nat) (c : Nat) : (s.raiseOutOfBounds a).byteAt c = s.byteAt c := rfl
@[simp] theorem State.raiseOutOfBounds_eeByteAt (s : State) (a : Nat) (c : Nat) : (s.raiseOutOfBounds a).eeByteAt c = s.eeByteAt c := rfl
@[simp] theorem State.issue_byteAt (s : State) (r : Request) (c : Nat) : (s.issue r).byteAt c = s.byteAt c := rfl
@[simp] theorem State.issue_eeByteAt (s : State) (r : Request) (c : Nat) : (s.issue r).eeByteAt c = s.eeByteAt c := rfl
@[simp] theorem dacLoad_byteAt (s : State) (v : Byte) (c : Nat) : (dacLoad v s).byteAt c = s.byteAt c := rfl
@[simp] theorem dacLoad_eeByteAt (s : State) (v : Byte) (c : Nat) : (dacLoad v s).eeByteAt c = s.eeByteAt c := rfl
@[simp] theorem State.with_acc_byteAt (s : State) (x : Nat) (c : Nat) :
    State.byteAt { s with acc := x } c = s.byteAt c := rfl
@[simp] theorem State.with_acc_eeByteAt (s : State) (x : Nat) (c : Nat) :
    State.eeByteAt { s with acc := x } c = s.eeByteAt c := rfl
@[simp] theorem State.with_ain_byteAt (s : State) (x : Rat) (c : Nat) :
    State.byteAt { s with ain := x } c = s.byteAt c := rfl
@[simp] theorem State.with_ain_eeByteAt (s : State) (x : Rat) (c : Nat) :
    State.eeByteAt { s with ain := x } c = s.eeByteAt c := rfl
@[simp] theorem State.with_inbox_byteAt (s : State) (x : List Request) (c : Nat) :
    State.byteAt { s with inbox := x } c = s.byteAt c := rfl

end Sys2Proof.Machine
end

