-- ==== Sys2Proof/Laws/Memory.lean ====
section
/-! SUPPORT. Read after write on M and E, and that every memory operation keeps the canonical form. -/

namespace Sys2Proof.Machine

@[simp] theorem findCell_nil (a : Nat) : findCell [] a = none := rfl

@[simp] theorem findCell_cons (a b : Nat) (v : Byte) (m : List Host.Cell) :
    findCell ((b, v) :: m) a = if b = a then some v else findCell m a := rfl

theorem findCell_putCell (m : List Host.Cell) (a b : Nat) (v : Byte) :
    findCell (putCell m a v) b = if b = a then some v else findCell m b := by
  induction m with
  | nil => simp [putCell, findCell, eq_comm]
  | cons c m ih =>
    obtain ⟨d, w⟩ := c
    simp only [putCell]
    split
    · simp [findCell, eq_comm]
    · split
      · subst d
        by_cases h : b = a <;> simp [findCell, h, Ne.symm]
      · simp only [findCell, ih]
        by_cases h : b = a
        · subst b
          simp_all [eq_comm]
        · simp [h]

theorem findCell_dropCell (m : List Host.Cell) (a b : Nat) :
    findCell (dropCell m a) b = if b = a then none else findCell m b := by
  induction m with
  | nil => simp [dropCell, findCell]
  | cons c m ih =>
    obtain ⟨d, w⟩ := c
    simp only [dropCell]
    split
    · subst d
      by_cases h : b = a
      · simpa [h] using ih
      · simp [ih, h, findCell, Ne.symm h]
    · by_cases h : b = a
      · subst b
        simp_all [findCell]
      · simp [findCell, ih, h]

/-- Read after write on M: the byte written at its offset, every other byte as before. -/
theorem memRead_memStore (m : List Host.Cell) (a b : Nat) (v : Byte) :
    memRead (memStore m a v) b = if b = a then v else memRead m b := by
  unfold memStore memRead
  split
  · rw [findCell_dropCell]
    by_cases h : b = a
    · subst b
      simp [*]
    · simp [h]
  · rw [findCell_putCell]
    by_cases h : b = a <;> simp [h]

theorem State.byteAt_record (s : State) (a b : Nat) (v : Byte) :
    (s.record a v).byteAt b = if b = a then v else s.byteAt b :=
  memRead_memStore s.mem a b v

@[simp] theorem State.byteAt_record_same (s : State) (a : Nat) (v : Byte) : (s.record a v).byteAt a = v := by
  simp [State.byteAt_record]

theorem State.byteAt_record_ne (s : State) {a b : Nat} (v : Byte) (h : b ≠ a) :
    (s.record a v).byteAt b = s.byteAt b := by
  simp [State.byteAt_record, h]

theorem State.eeByteAt_eeStore (s : State) (a b : Nat) (v : Byte) :
    (s.eeStore a v).eeByteAt b = if b = a then v else s.eeByteAt b := by
  unfold State.eeByteAt eeRead State.eeStore
  rw [findCell_putCell]
  by_cases h : b = a <;> simp [h]

/-! The canonical forms. -/

theorem rising_mono {lo lo' hi : Nat} (h : lo' ≤ lo) {m : List Host.Cell} (hm : rising lo hi m = true) :
    rising lo' hi m = true := by
  cases m with
  | nil => rfl
  | cons c m =>
    simp only [rising, Bool.and_eq_true, decide_eq_true_eq] at hm ⊢
    exact ⟨⟨by omega, hm.1.2⟩, hm.2⟩

theorem rising_putCell {lo hi a : Nat} (v : Byte) (m : List Host.Cell) (hm : rising lo hi m = true) (hlo : lo ≤ a)
    (hhi : a < hi) : rising lo hi (putCell m a v) = true := by
  induction m generalizing lo with
  | nil => simp [putCell, rising, hlo, hhi]
  | cons c m ih =>
    obtain ⟨b, w⟩ := c
    simp only [rising, Bool.and_eq_true, decide_eq_true_eq] at hm
    simp only [putCell]
    split
    · simp only [rising, Bool.and_eq_true, decide_eq_true_eq]
      exact ⟨⟨hlo, hhi⟩, ⟨by omega, hm.1.2⟩, hm.2⟩
    · split
      · subst b
        simp only [rising, Bool.and_eq_true, decide_eq_true_eq]
        exact ⟨⟨hlo, hhi⟩, hm.2⟩
      · simp only [rising, Bool.and_eq_true, decide_eq_true_eq]
        exact ⟨hm.1, ih hm.2 (by omega)⟩

theorem rising_dropCell {lo hi a : Nat} (m : List Host.Cell) (hm : rising lo hi m = true) :
    rising lo hi (dropCell m a) = true := by
  induction m generalizing lo with
  | nil => rfl
  | cons c m ih =>
    obtain ⟨b, w⟩ := c
    simp only [rising, Bool.and_eq_true, decide_eq_true_eq] at hm
    simp only [dropCell]
    split
    · exact rising_mono (by omega) (ih hm.2)
    · simp only [rising, Bool.and_eq_true, decide_eq_true_eq]
      exact ⟨hm.1, ih hm.2⟩

theorem mem_putCell {m : List Host.Cell} {a : Nat} {v : Byte} {c : Host.Cell} (h : c ∈ putCell m a v) :
    c = (a, v) ∨ c ∈ m := by
  induction m with
  | nil => simpa [putCell] using h
  | cons d m ih =>
    obtain ⟨b, w⟩ := d
    simp only [putCell] at h
    split at h
    · simpa using h
    · split at h
      · simp only [List.mem_cons] at h ⊢
        tauto
      · simp only [List.mem_cons] at h ⊢
        rcases h with h | h
        · exact .inr (.inl h)
        · rcases ih h with h | h
          · exact .inl h
          · exact .inr (.inr h)

theorem mem_dropCell {m : List Host.Cell} {a : Nat} {c : Host.Cell} (h : c ∈ dropCell m a) : c ∈ m := by
  induction m with
  | nil => exact h
  | cons d m ih =>
    obtain ⟨b, w⟩ := d
    simp only [dropCell] at h
    split at h
    · exact List.mem_cons_of_mem _ (ih h)
    · simp only [List.mem_cons] at h ⊢
      exact h.imp id ih

/-- A store inside the buffer keeps the canonical form of M. -/
theorem memStore_wf {m : List Host.Cell} {a : Nat} (v : Byte) (hm : Memory.wf m = true) (ha : a < Param.memSize) :
    Memory.wf (memStore m a v) = true := by
  simp only [Memory.wf, Bool.and_eq_true, List.all_eq_true, bne_iff_ne] at hm ⊢
  unfold memStore
  split
  · exact ⟨rising_dropCell m hm.1, fun c hc => hm.2 c (mem_dropCell hc)⟩
  · refine ⟨rising_putCell v m hm.1 (Nat.zero_le a) ha, fun c hc => ?_⟩
    rcases mem_putCell hc with rfl | hc
    · assumption
    · exact hm.2 c hc

/-- A store inside the image keeps the canonical form of E. -/
theorem eeStore_wf {e : List Host.Cell} {a : Nat} (v : Byte) (he : Eeprom.wf e = true) (ha : a < Param.eeSize) :
    Eeprom.wf (putCell e a v) = true :=
  rising_putCell v e he (Nat.zero_le a) ha

/-- In canonical form equal contents are equal lists: two canonical memories that read alike everywhere are equal. -/
theorem memory_ext {m m' : List Host.Cell} (hm : Memory.wf m = true) (hm' : Memory.wf m' = true)
    (h : ∀ a, memRead m a = memRead m' a) : m = m' := by
  have low : ∀ {lo hi : Nat} {l : List Host.Cell} {a : Nat}, rising lo hi l = true → a < lo → findCell l a = none := by
    intro lo hi l
    induction l generalizing lo with
    | nil => intros; rfl
    | cons c l ih =>
      intro a hr ha
      simp only [rising, Bool.and_eq_true, decide_eq_true_eq] at hr
      simp only [findCell]
      rw [if_neg (by omega)]
      exact ih hr.2 (by omega)
  have key : ∀ (l l' : List Host.Cell) (lo hi : Nat), rising lo hi l = true → rising lo hi l' = true →
      (l.all fun c => c.2 != resetByte c.1) = true → (l'.all fun c => c.2 != resetByte c.1) = true →
      (∀ a, memRead l a = memRead l' a) → l = l' := by
    intro l
    induction l with
    | nil =>
      intro l' lo hi _ _ _ ha' hr
      cases l' with
      | nil => rfl
      | cons c l' =>
        have := hr c.1
        simp [memRead, findCell, List.all_cons] at this ha'
        exact absurd this.symm ha'.1
    | cons c l ih =>
      intro l' lo hi h1 h2 ha ha' hr
      cases l' with
      | nil =>
        have := hr c.1
        simp [memRead, findCell, List.all_cons] at this ha
        exact absurd this ha.1
      | cons c' l' =>
        obtain ⟨b, w⟩ := c
        obtain ⟨b', w'⟩ := c'
        simp only [rising, Bool.and_eq_true, decide_eq_true_eq, List.all_cons, bne_iff_ne] at h1 h2 ha ha'
        rcases Nat.lt_trichotomy b b' with hb | hb | hb
        · have := hr b
          simp [memRead, findCell, show b' ≠ b by omega, low h2.2 (show b < b' + 1 by omega)] at this
          exact absurd this ha.1
        · subst b'
          have hw := hr b
          simp [memRead, findCell] at hw
          subst w'
          have : l = l' := ih l' (b + 1) hi h1.2 h2.2 ha.2 ha'.2 (by
            intro a
            have := hr a
            by_cases hab : b = a
            · subst hab
              simp [memRead, low h1.2 (Nat.lt_succ_self b), low h2.2 (Nat.lt_succ_self b)]
            · simpa [memRead, findCell, hab] using this)
          rw [this]
        · have := hr b'
          simp [memRead, findCell, show b ≠ b' by omega, low h1.2 (show b' < b + 1 by omega)] at this
          exact absurd this.symm ha'.1
  simp only [Memory.wf, Bool.and_eq_true] at hm hm'
  exact key m m' 0 Param.memSize hm.1 hm'.1 hm.2 hm'.2 h

end Sys2Proof.Machine
end

