-- ==== Sys2Proof/Laws/Bus.lean ====
section
/-! SUPPORT. What MemWrite does at each offset of the register map, at every nesting level that suffices, and that no
deeper level is ever needed (40_bus_dispatch.md R92, R94, R98, R99). -/

namespace Sys2Proof.Machine

theorem ifRunning_next {s t : State} (h : s.fault = none) : ifRunning s t = .next t := by
  simp [ifRunning, h]

theorem ifRunning_fault {s t : State} {a : Nat} (h : s.fault = some a) :
    ifRunning s t = .fault (.outOfBounds a) := by
  simp [ifRunning, h]

theorem ifRunning_eq_next {s t u : State} (h : ifRunning s t = .next u) : s.fault = none ∧ u = t := by
  unfold ifRunning at h
  split at h
  · cases h
    exact ⟨by assumption, rfl⟩
  · cases h

/-! The multiplexer. -/

theorem dispatchGpio_port (p : Port) (old new : Byte) (s : State) {a : Nat} (ha : a = pinOf p ∨ a = portOf p) :
    dispatchGpio a old new s = portFanout p old new s := by
  cases p <;> rcases ha with rfl | rfl <;> rfl

theorem dispatchGpio_other {a : Nat} (old new : Byte) (s : State)
    (ha : a ∉ [Reg.pinb, Reg.portb, Reg.pinc, Reg.portc, Reg.pind, Reg.portd]) :
    dispatchGpio a old new s = s := by
  simp only [Reg.pinb, Reg.portb, Reg.pinc, Reg.portc, Reg.pind, Reg.portd, List.mem_cons, List.not_mem_nil, or_false,
    not_or] at ha
  unfold dispatchGpio
  split
  · rename_i h
    have hb := h.1
    rw [if_neg (fun h => by omega), if_neg (fun h => by omega), if_neg (fun h => by omega)]
  · rfl

theorem dispatchAddress_other (mw : MemWriter) {a : Nat} (new : Byte) (s : State)
    (ha : a ∉ [Reg.adcsra, Reg.eecr, Reg.dac, Reg.udr0]) : dispatchAddress mw a new s = s := by
  simp only [List.mem_cons, List.not_mem_nil, or_false, not_or] at ha
  simp [dispatchAddress, ha]

theorem dispatch_plain (mw : MemWriter) {a : Nat} (old new : Byte) (s : State) (ha : a ∉ Reg.dispatching) :
    dispatch mw a old new s = s := by
  simp only [Reg.dispatching, List.mem_cons, List.not_mem_nil, or_false, not_or] at ha
  rw [dispatch, dispatchGpio_other _ _ _ (by simp [ha]), dispatchAddress_other _ _ _ (by simp [ha])]

theorem dispatch_port (mw : MemWriter) (p : Port) (old new : Byte) (s : State) {a : Nat}
    (ha : a = pinOf p ∨ a = portOf p) : dispatch mw a old new s = portFanout p old new s := by
  rw [dispatch, dispatchGpio_port p _ _ _ ha, dispatchAddress_other]
  cases p <;> rcases ha with rfl | rfl <;> decide

theorem dispatch_address (mw : MemWriter) {a : Nat} (old new : Byte) (s : State)
    (ha : a ∈ [Reg.adcsra, Reg.eecr, Reg.dac, Reg.udr0]) :
    dispatch mw a old new s = dispatchAddress mw a new s := by
  rw [dispatch, dispatchGpio_other]
  revert a
  decide

/-! MemWrite, offset by offset. -/

theorem memWriteAt_outOfBounds (k : Nat) {a : Nat} (v : Byte) (s : State) (ha : Param.memSize ≤ a) :
    memWriteAt k a v s = s.raiseOutOfBounds a := by
  cases k <;> simp [memWriteAt, ha]

theorem memWriteAt_succ (k : Nat) {a : Nat} (v : Byte) (s : State) (ha : a < Param.memSize) :
    memWriteAt (k + 1) a v s = dispatch (memWriteAt k) a (s.byteAt a) v (s.record a v) := by
  simp [memWriteAt, Nat.not_le.mpr ha]

theorem memWriteAt_zero {a : Nat} (v : Byte) (s : State) (ha : a < Param.memSize) :
    memWriteAt 0 a v s = s.record a v := by
  simp [memWriteAt, Nat.not_le.mpr ha]

/-- An offset that selects no update: the byte is stored and notified, whatever the level. -/
theorem memWriteAt_plain (k : Nat) {a : Nat} (v : Byte) (s : State) (ha : a < Param.memSize)
    (hd : a ∉ Reg.dispatching) : memWriteAt k a v s = s.record a v := by
  cases k with
  | zero => exact memWriteAt_zero v s ha
  | succ k => rw [memWriteAt_succ k v s ha, dispatch_plain _ _ _ _ hd]

theorem memWriteAt_port (k : Nat) (p : Port) (v : Byte) (s : State) {a : Nat} (ha : a = pinOf p ∨ a = portOf p) :
    memWriteAt (k + 1) a v s = portFanout p (s.byteAt a) v (s.record a v) := by
  rw [memWriteAt_succ k v s, dispatch_port _ p _ _ _ ha]
  cases p <;> rcases ha with rfl | rfl <;> decide

theorem memWriteAt_dac (k : Nat) (v : Byte) (s : State) :
    memWriteAt (k + 1) Reg.dac v s = dacLoad v (s.record Reg.dac v) := by
  rw [memWriteAt_succ k v s (by decide), dispatch_address _ _ _ _ (by decide)]
  rfl

theorem memWriteAt_udr0 (k : Nat) (v : Byte) (s : State) :
    memWriteAt (k + 1) Reg.udr0 v s = uartTransmit (memWriteAt k) v (s.record Reg.udr0 v) := by
  rw [memWriteAt_succ k v s (by decide), dispatch_address _ _ _ _ (by decide)]
  rfl

theorem memWriteAt_adcsra (k : Nat) (v : Byte) (s : State) :
    memWriteAt (k + 1) Reg.adcsra v s = adcUpdate (memWriteAt k) (s.record Reg.adcsra v) := by
  rw [memWriteAt_succ k v s (by decide), dispatch_address _ _ _ _ (by decide)]
  rfl

theorem memWriteAt_eecr (k : Nat) (v : Byte) (s : State) :
    memWriteAt (k + 1) Reg.eecr v s = eepromUpdate (memWriteAt k) (s.record Reg.eecr v) := by
  rw [memWriteAt_succ k v s (by decide), dispatch_address _ _ _ _ (by decide)]
  rfl

/-! The updates, with their own writes run. -/

theorem uartSend_memWriteAt (k : Nat) (v : Byte) (s : State) :
    uartSend (memWriteAt k) v s =
      (s.emit (.uartTx v)).record Reg.ucsr0a (txFlags (s.byteAt Reg.ucsr0a)) := by
  simp only [uartSend]
  rw [memWriteAt_plain k _ _ (by decide) (by decide)]
  rfl

theorem adcStoreLeft_memWriteAt (k : Nat) (r : BitVec 10) (s : State) :
    adcStoreLeft (memWriteAt k) r s = (s.record Reg.adcl (leftLow r)).record Reg.adch (leftHigh r) := by
  simp only [adcStoreLeft]
  rw [memWriteAt_plain k _ _ (by decide) (by decide), memWriteAt_plain k _ _ (by decide) (by decide)]

theorem adcStoreRight_memWriteAt (k : Nat) (r : BitVec 10) (s : State) :
    adcStoreRight (memWriteAt k) r s = (s.record Reg.adcl (rightLow r)).record Reg.adch (rightHigh r) := by
  simp only [adcStoreRight]
  rw [memWriteAt_plain k _ _ (by decide) (by decide), memWriteAt_plain k _ _ (by decide) (by decide)]

/-- A write of ADCSRA with ADSC clear starts no conversion, whatever the level. -/
theorem memWriteAt_adcsra_idle (k : Nat) (v : Byte) (s : State) (hv : bitOf v Bit.adsc = false) :
    memWriteAt k Reg.adcsra v s = s.record Reg.adcsra v := by
  cases k with
  | zero => exact memWriteAt_zero v s (by decide)
  | succ k =>
    rw [memWriteAt_adcsra, adcUpdate, State.byteAt_record_same, hv]
    rfl

theorem adcComplete_memWriteAt (k : Nat) (s : State) :
    adcComplete (memWriteAt k) s = s.record Reg.adcsra (adcDone (s.byteAt Reg.adcsra)) :=
  memWriteAt_adcsra_idle k _ s (bitOf_adcDone_adsc _)

/-- The stores of one conversion of result r: ADCL, ADCH, then ADCSRA (43_adc.md R150). -/
theorem adcConvert_memWriteAt (k : Nat) (s : State) :
    adcConvert (memWriteAt k) s =
      ((s.record Reg.adcl (if bitOf (s.byteAt Reg.admux) Bit.adlar then leftLow (adcResult s) else rightLow (adcResult s))).record
        Reg.adch (if bitOf (s.byteAt Reg.admux) Bit.adlar then leftHigh (adcResult s) else rightHigh (adcResult s))).record
        Reg.adcsra (adcDone (s.byteAt Reg.adcsra)) := by
  have h1 : ∀ v w, ((s.record Reg.adcl v).record Reg.adch w).byteAt Reg.adcsra = s.byteAt Reg.adcsra := fun v w => by
    rw [State.byteAt_record_ne _ _ (by decide), State.byteAt_record_ne _ _ (by decide)]
  simp only [adcConvert]
  rw [adcComplete_memWriteAt]
  split
  · rw [adcStoreLeft_memWriteAt, h1]
  · rw [adcStoreRight_memWriteAt, h1]

/-- A write of EECR with EERE and EEWE clear runs no branch, whatever the level. -/
theorem memWriteAt_eecr_idle (k : Nat) (v : Byte) (s : State) (hr : bitOf v Bit.eere = false)
    (hw : bitOf v Bit.eewe = false) : memWriteAt k Reg.eecr v s = s.record Reg.eecr v := by
  cases k with
  | zero => exact memWriteAt_zero v s (by decide)
  | succ k => simp [memWriteAt_eecr, eepromUpdate, hr, hw]

theorem eepromWriteDropped_memWriteAt (k : Nat) (s : State) (hr : bitOf (s.byteAt Reg.eecr) Bit.eere = false) :
    eepromWriteDropped (memWriteAt k) s =
      s.record Reg.eecr (withoutBit (s.byteAt Reg.eecr) Bit.eewe) := by
  unfold eepromWriteDropped clrb
  apply memWriteAt_eecr_idle
  · rw [bitOf_withoutBit _ _ (by decide), hr]
    rfl
  · rw [bitOf_withoutBit _ _ (by decide)]
    simp

theorem eepromWrite_memWriteAt (k addr : Nat) (s : State) (hr : bitOf (s.byteAt Reg.eecr) Bit.eere = false) :
    eepromWrite (memWriteAt k) addr s =
      (s.eeStore addr (s.byteAt Reg.eedr)).record Reg.eecr
        (s.byteAt Reg.eecr &&& ~~~(Bit.mask Bit.eewe ||| Bit.mask Bit.eemwe)) := by
  unfold eepromWrite clrb2
  apply memWriteAt_eecr_idle
  · rw [bitOf_without2 _ _ _ (by decide), State.eeStore_byteAt, hr]
    rfl
  · rw [bitOf_without2 _ _ _ (by decide)]
    simp

/-- A write of EECR that drops a bare write-enable (42_eeprom.md R133). -/
theorem memWriteAt_eecr_dropped (k : Nat) (v : Byte) (s : State) (hr : bitOf v Bit.eere = false)
    (hw : bitOf v Bit.eewe = true) (hg : bitOf v Bit.eemwe = false) :
    memWriteAt (k + 1) Reg.eecr v s = (s.record Reg.eecr v).record Reg.eecr (withoutBit v Bit.eewe) := by
  rw [memWriteAt_eecr]
  simp only [eepromUpdate, State.byteAt_record_same, hr, hw, hg, Bool.false_eq_true, if_false, if_true]
  rw [eepromWriteDropped_memWriteAt _ _ (by simpa using hr), State.byteAt_record_same]

theorem eepromAddr_record (s : State) {a : Nat} (v : Byte) (hl : a ≠ Reg.eearl) (hh : a ≠ Reg.eearh) :
    eepromAddr (s.record a v) = eepromAddr s := by
  simp [eepromAddr, State.byteAt_record, hl.symm, hh.symm]

/-- A write of EECR that performs a gated EEPROM write (42_eeprom.md R133). -/
theorem memWriteAt_eecr_write (k : Nat) (v : Byte) (s : State) (hr : bitOf v Bit.eere = false)
    (hw : bitOf v Bit.eewe = true) (hg : bitOf v Bit.eemwe = true) :
    memWriteAt (k + 1) Reg.eecr v s =
      ((s.record Reg.eecr v).eeStore (eepromAddr s) (s.byteAt Reg.eedr)).record Reg.eecr
        (v &&& ~~~(Bit.mask Bit.eewe ||| Bit.mask Bit.eemwe)) := by
  rw [memWriteAt_eecr]
  simp only [eepromUpdate, State.byteAt_record_same, hr, hw, hg, Bool.false_eq_true, if_false, if_true]
  rw [eepromWrite_memWriteAt _ _ _ (by simpa using hr), State.byteAt_record_same,
    State.byteAt_record_ne _ _ (by decide), eepromAddr_record _ _ (by decide) (by decide)]

/-- After a nested write of EECR without EERE, EEWE is clear. -/
theorem memWriteAt_eecr_clears (k : Nat) (v : Byte) (s : State) (hr : bitOf v Bit.eere = false) :
    bitOf ((memWriteAt (k + 1) Reg.eecr v s).byteAt Reg.eecr) Bit.eewe = false := by
  cases hw : bitOf v Bit.eewe with
  | false => rw [memWriteAt_eecr_idle _ _ _ hr hw, State.byteAt_record_same, hw]
  | true =>
    cases hg : bitOf v Bit.eemwe with
    | false =>
      rw [memWriteAt_eecr_dropped _ _ _ hr hw hg, State.byteAt_record_same, bitOf_withoutBit _ _ (by decide)]
      simp
    | true =>
      rw [memWriteAt_eecr_write _ _ _ hr hw hg, State.byteAt_record_same, bitOf_without2 _ _ _ (by decide)]
      simp

/-- A write of EECR with EERE set: EEDR takes the addressed byte, and the write of EECR without EERE, one level down,
does the rest (42_eeprom.md R132, R136). -/
theorem memWriteAt_eecr_read (k : Nat) (v : Byte) (s : State) (hr : bitOf v Bit.eere = true) :
    memWriteAt (k + 2) Reg.eecr v s =
      memWriteAt (k + 1) Reg.eecr (withoutBit v Bit.eere)
        ((s.record Reg.eecr v).record Reg.eedr (s.eeByteAt (eepromAddr s))) := by
  have hb : ((s.record Reg.eecr v).record Reg.eedr (s.eeByteAt (eepromAddr s))).byteAt Reg.eecr = v := by
    rw [State.byteAt_record_ne _ _ (by decide), State.byteAt_record_same]
  have ha : eepromAddr (s.record Reg.eecr v) = eepromAddr s := eepromAddr_record _ _ (by decide) (by decide)
  have he : (s.record Reg.eecr v).eeByteAt (eepromAddr s) = s.eeByteAt (eepromAddr s) := by simp
  rw [memWriteAt_eecr]
  simp only [eepromUpdate, State.byteAt_record_same, hr, if_true, eepromRead, clrb, ha, he]
  rw [memWriteAt_plain (k + 1) (a := Reg.eedr) _ _ (by decide) (by decide), hb]
  rw [memWriteAt_eecr_clears k _ _ (by rw [bitOf_withoutBit _ _ (by decide)]; simp)]
  rfl

/-- With EERE and EEWE clear nothing more happens; one level per set command bit is enough (R99). -/
theorem memWriteAt_eecr_stable (k : Nat) (v : Byte) (s : State) :
    memWriteAt (k + 3) Reg.eecr v s = memWriteAt 3 Reg.eecr v s := by
  have noRead : ∀ (k : Nat) (v : Byte) (s : State), bitOf v Bit.eere = false →
      memWriteAt (k + 1) Reg.eecr v s = memWriteAt 1 Reg.eecr v s := by
    intro k v s hr
    cases hw : bitOf v Bit.eewe with
    | false => rw [memWriteAt_eecr_idle _ _ _ hr hw, memWriteAt_eecr_idle _ _ _ hr hw]
    | true =>
      cases hg : bitOf v Bit.eemwe with
      | false => rw [memWriteAt_eecr_dropped _ _ _ hr hw hg, ← memWriteAt_eecr_dropped 0 _ _ hr hw hg]
      | true => rw [memWriteAt_eecr_write _ _ _ hr hw hg, ← memWriteAt_eecr_write 0 _ _ hr hw hg]
  cases hr : bitOf v Bit.eere with
  | false => rw [noRead (k + 2) _ _ hr, noRead 2 _ _ hr]
  | true =>
    have hc : bitOf (withoutBit v Bit.eere) Bit.eere = false := by
      rw [bitOf_withoutBit _ _ (by decide)]
      simp
    rw [memWriteAt_eecr_read _ _ _ hr, memWriteAt_eecr_read _ _ _ hr,
      noRead (k + 1) _ _ hc, noRead 1 _ _ hc]

end Sys2Proof.Machine
end

