-- ==== Sys2Proof/Laws/Commands.lean ====
section
/-! SUPPORT. What selecting each register command's row asks of the byte of its register (30_encoding.md R77 to R80). -/

namespace Sys2Proof.Machine

theorem selects_tccr0bCs0 (n : Nat) (b : Byte) :
    (Instr.tccr0bCs0 n).selects b = ((b &&& Bit.csMask).toNat == 0) := by
  simp only [Instr.selects, Instr.row]
  revert b
  decide

theorem selects_tccr0bCs1 (n : Nat) (b : Byte) :
    (Instr.tccr0bCs1 n).selects b = ((b &&& Bit.csMask).toNat == 1) := by
  simp only [Instr.selects, Instr.row]
  revert b
  decide

theorem selects_tccr0bCs2 (n : Nat) (b : Byte) :
    (Instr.tccr0bCs2 n).selects b = ((b &&& Bit.csMask).toNat == 2) := by
  simp only [Instr.selects, Instr.row]
  revert b
  decide

theorem selects_tccr0bCs3 (n : Nat) (b : Byte) :
    (Instr.tccr0bCs3 n).selects b = ((b &&& Bit.csMask).toNat == 3) := by
  simp only [Instr.selects, Instr.row]
  revert b
  decide

theorem selects_tccr0bCs4 (n : Nat) (b : Byte) :
    (Instr.tccr0bCs4 n).selects b = ((b &&& Bit.csMask).toNat == 4) := by
  simp only [Instr.selects, Instr.row]
  revert b
  decide

theorem selects_tccr0bCs5 (n : Nat) (b : Byte) :
    (Instr.tccr0bCs5 n).selects b = ((b &&& Bit.csMask).toNat == 5) := by
  simp only [Instr.selects, Instr.row]
  revert b
  decide

theorem selects_tccr0bCs6 (n : Nat) (b : Byte) :
    (Instr.tccr0bCs6 n).selects b = ((b &&& Bit.csMask).toNat == 6) := by
  simp only [Instr.selects, Instr.row]
  revert b
  decide

theorem selects_tccr0bCs7 (n : Nat) (b : Byte) :
    (Instr.tccr0bCs7 n).selects b = ((b &&& Bit.csMask).toNat == 7) := by
  simp only [Instr.selects, Instr.row]
  revert b
  decide

theorem selects_eecrRead (b : Byte) :
    (Instr.eecrRead).selects b = (bitOf b Bit.eere) := by
  simp only [Instr.selects, Instr.row]
  revert b
  decide

theorem selects_eecrWrite (b : Byte) :
    (Instr.eecrWrite).selects b = (bitOf b Bit.eewe && bitOf b Bit.eemwe) := by
  simp only [Instr.selects, Instr.row]
  revert b
  decide

theorem selects_eecrWriteDropped (b : Byte) :
    (Instr.eecrWriteDropped).selects b = (bitOf b Bit.eewe && !bitOf b Bit.eemwe) := by
  simp only [Instr.selects, Instr.row]
  revert b
  decide

theorem selects_eecrGateOnly (b : Byte) :
    (Instr.eecrGateOnly).selects b = (!bitOf b Bit.eere && !bitOf b Bit.eewe && bitOf b Bit.eemwe) := by
  simp only [Instr.selects, Instr.row]
  revert b
  decide

theorem selects_adcsraStart (b : Byte) :
    (Instr.adcsraStart).selects b = (bitOf b Bit.adsc) := by
  simp only [Instr.selects, Instr.row]
  revert b
  decide

theorem selects_adcsraNostart (b : Byte) :
    (Instr.adcsraNostart).selects b = (!bitOf b Bit.adsc) := by
  simp only [Instr.selects, Instr.row]
  revert b
  decide

theorem selects_admuxLeft (r : BitVec 10) (b : Byte) :
    (Instr.admuxLeft r).selects b = (bitOf b Bit.adlar) := by
  simp only [Instr.selects, Instr.row]
  revert b
  decide

theorem selects_admuxRight (r : BitVec 10) (b : Byte) :
    (Instr.admuxRight r).selects b = (!bitOf b Bit.adlar) := by
  simp only [Instr.selects, Instr.row]
  revert b
  decide

theorem selects_ucsr0bTxen (x : Byte) (b : Byte) :
    (Instr.ucsr0bTxen x).selects b = (bitOf b Bit.txen) := by
  simp only [Instr.selects, Instr.row]
  revert b
  decide

theorem selects_ucsr0bTxoff (x : Byte) (b : Byte) :
    (Instr.ucsr0bTxoff x).selects b = (!bitOf b Bit.txen) := by
  simp only [Instr.selects, Instr.row]
  revert b
  decide

theorem selects_ucsr0bRxen (x : Byte) (b : Byte) :
    (Instr.ucsr0bRxen x).selects b = (bitOf b Bit.rxen) := by
  simp only [Instr.selects, Instr.row]
  revert b
  decide

theorem selects_ucsr0bRxoff (x : Byte) (b : Byte) :
    (Instr.ucsr0bRxoff x).selects b = (!bitOf b Bit.rxen) := by
  simp only [Instr.selects, Instr.row]
  revert b
  decide

end Sys2Proof.Machine
end

