-- ==== Sys2Proof/Laws/Effects.lean ====
section
/-! SUPPORT. Everything a transaction can do, said once: it is a sequence of the eight primitive effects below. A
property that each effect keeps is kept by every instruction (`exec_effects`) and by every step (`step_effects`). -/

namespace Sys2Proof.Machine

/-- One primitive effect on the state. -/
inductive Effect : State → State → Prop where
  /-- A byte stored and notified at an offset that is not the DAC's (40_bus_dispatch.md R92). -/
  | store (s : State) (a : Nat) (v : Byte) (ha : a < Param.memSize) (hd : a ≠ Reg.dac) : Effect s (s.record a v)
  /-- The DAC's byte stored and notified, and the output loaded (40_bus_dispatch.md R95). -/
  | storeDac (s : State) (v : Byte) : Effect s (dacLoad v (s.record Reg.dac v))
  /-- A host-visible event with its payload in range (10_state.md R43). -/
  | event (s : State) (e : Event) (hv : e.hostVisible = true) (hp : e.payloadOk = true) : Effect s (s.emit e)
  /-- A byte of E stored (42_eeprom.md R133). -/
  | eeprom (s : State) (a : Nat) (v : Byte) (ha : a < Param.eeSize) : Effect s (s.eeStore a v)
  /-- The fault mark set (60_exceptions.md R210). -/
  | outOfBounds (s : State) (a : Nat) (ha : Param.memSize ≤ a) : Effect s (s.raiseOutOfBounds a)
  /-- The accumulator set, below the greatest divider (41_timer.md R112). -/
  | accumulate (s : State) (n : Nat) (hn : n ≤ 1023) : Effect s { s with acc := n }
  /-- The analog input set (43_adc.md R154). -/
  | analog (s : State) (v : Rat) : Effect s { s with ain := v }
  /-- An answer returned (40_bus_dispatch.md R91, R96). -/
  | answer (s : State) (x : Answer) : Effect s (s.answer x)

/-- A sequence of effects. -/
abbrev Effects : State → State → Prop := Relation.ReflTransGen Effect

theorem Effects.one {s t : State} (h : Effect s t) : Effects s t := .single h

/-- The effects an update's own writes may have: every MemWrite a rule of the block issues is at an offset below
MEM_SIZE that is not the DAC's (40_bus_dispatch.md R92, R97). -/
abbrev WriterEffects (mw : MemWriter) : Prop :=
  ∀ a v s, a < Param.memSize → a ≠ Reg.dac → Effects s (mw a v s)

theorem portFanout_effects (p : Port) (old new : Byte) (s : State) : Effects s (portFanout p old new s) := by
  have many : ∀ (es : List Event) (s : State), (∀ e ∈ es, e.hostVisible = true ∧ e.payloadOk = true) →
      Effects s (s.emitAll es) := by
    intro es
    induction es with
    | nil =>
      intro s _
      have : s.emitAll [] = s := by simp [State.emitAll]
      rw [this]
    | cons e es ih =>
      intro s h
      have he := h e (by simp)
      have : s.emitAll (e :: es) = (s.emit e).emitAll es := by simp [State.emitAll, State.emit]
      rw [this]
      exact (Effects.one (.event s e he.1 he.2)).trans (ih _ fun e' h' => h e' (by simp [h']))
  have first : Effects s (s.emit (.portChange p old new)) := Effects.one (.event _ _ rfl rfl)
  unfold portFanout
  split
  · refine first.trans (many _ _ fun e he => ?_)
    simp only [pinEvents, List.mem_map] at he
    obtain ⟨m, hm, rfl⟩ := he
    exact ⟨rfl, by simpa [Event.payloadOk] using hm⟩
  · exact first

theorem eepromAddr_lt (s : State) : eepromAddr s < Param.eeSize := by
  unfold eepromAddr
  have : ∀ x : BitVec 16, (x &&& BitVec.ofNat 16 (Param.eeSize - 1)).toNat < Param.eeSize := by
    intro x
    have : (x &&& BitVec.ofNat 16 (Param.eeSize - 1)).toNat ≤ (BitVec.ofNat 16 (Param.eeSize - 1)).toNat := by
      rw [BitVec.toNat_and]
      exact Nat.and_le_right
    have h2 : (BitVec.ofNat 16 (Param.eeSize - 1)).toNat = 1023 := by decide
    have h3 : Param.eeSize = 1024 := rfl
    omega
  exact this _

theorem eepromRead_effects {mw : MemWriter} (h : WriterEffects mw) (addr : Nat) (s : State) :
    Effects s (eepromRead mw addr s) :=
  (h Reg.eedr _ s (by decide) (by decide)).trans (h Reg.eecr _ _ (by decide) (by decide))

theorem eepromWrite_effects {mw : MemWriter} (h : WriterEffects mw) {addr : Nat} (ha : addr < Param.eeSize)
    (s : State) : Effects s (eepromWrite mw addr s) :=
  (Effects.one (.eeprom s _ _ ha)).trans (h Reg.eecr _ _ (by decide) (by decide))

theorem eepromWriteDropped_effects {mw : MemWriter} (h : WriterEffects mw) (s : State) :
    Effects s (eepromWriteDropped mw s) :=
  h Reg.eecr _ _ (by decide) (by decide)

theorem eepromUpdate_effects {mw : MemWriter} (h : WriterEffects mw) (s : State) : Effects s (eepromUpdate mw s) := by
  have addr := eepromAddr_lt s
  simp only [eepromUpdate]
  split <;> split <;> try split
  · exact (eepromRead_effects h _ s).trans (eepromWrite_effects h addr _)
  · exact (eepromRead_effects h _ s).trans (eepromWriteDropped_effects h _)
  · exact eepromRead_effects h _ s
  · exact eepromWrite_effects h addr s
  · exact eepromWriteDropped_effects h s
  · exact .refl

theorem adcStoreLeft_effects {mw : MemWriter} (h : WriterEffects mw) (r : BitVec 10) (s : State) :
    Effects s (adcStoreLeft mw r s) :=
  (h Reg.adcl _ s (by decide) (by decide)).trans (h Reg.adch _ _ (by decide) (by decide))

theorem adcStoreRight_effects {mw : MemWriter} (h : WriterEffects mw) (r : BitVec 10) (s : State) :
    Effects s (adcStoreRight mw r s) :=
  (h Reg.adcl _ s (by decide) (by decide)).trans (h Reg.adch _ _ (by decide) (by decide))

theorem adcConvert_effects {mw : MemWriter} (h : WriterEffects mw) (s : State) : Effects s (adcConvert mw s) := by
  simp only [adcConvert]
  split
  · exact (adcStoreLeft_effects h _ s).trans (h Reg.adcsra _ _ (by decide) (by decide))
  · exact (adcStoreRight_effects h _ s).trans (h Reg.adcsra _ _ (by decide) (by decide))

theorem adcUpdate_effects {mw : MemWriter} (h : WriterEffects mw) (s : State) : Effects s (adcUpdate mw s) := by
  unfold adcUpdate
  split
  · exact adcConvert_effects h s
  · exact .refl

theorem uartSend_effects {mw : MemWriter} (h : WriterEffects mw) (b : Byte) (s : State) : Effects s (uartSend mw b s) :=
  (Effects.one (.event s (.uartTx b) rfl rfl)).trans (h Reg.ucsr0a _ _ (by decide) (by decide))

theorem uartTransmit_effects {mw : MemWriter} (h : WriterEffects mw) (b : Byte) (s : State) :
    Effects s (uartTransmit mw b s) := by
  unfold uartTransmit
  split
  · exact uartSend_effects h b s
  · exact .refl

theorem uartAccept_effects {mw : MemWriter} (h : WriterEffects mw) (b : Byte) (s : State) :
    Effects s (uartAccept mw b s) :=
  (h Reg.udr0 _ s (by decide) (by decide)).trans (h Reg.ucsr0a _ _ (by decide) (by decide))

theorem uartReceive_effects {mw : MemWriter} (h : WriterEffects mw) (b : Byte) (s : State) :
    Effects s (uartReceive mw b s) := by
  unfold uartReceive
  split
  · exact uartAccept_effects h b s
  · exact .refl

theorem dispatchGpio_effects (a : Nat) (old new : Byte) (s : State) : Effects s (dispatchGpio a old new s) := by
  simp only [dispatchGpio]
  split
  · split
    · exact portFanout_effects _ _ _ _
    · split
      · exact portFanout_effects _ _ _ _
      · split
        · exact portFanout_effects _ _ _ _
        · exact .refl
  · exact .refl

/-- What MemWrite can do at any level, but for a write of the DAC at level 0, which no rule of the block issues. -/
theorem memWriteAt_effects (k : Nat) (a : Nat) (v : Byte) (s : State) (hk : 0 < k ∨ a ≠ Reg.dac) :
    Effects s (memWriteAt k a v s) := by
  induction k generalizing a v s with
  | zero =>
    have hd : a ≠ Reg.dac := by omega
    by_cases ha : Param.memSize ≤ a
    · rw [memWriteAt_outOfBounds _ _ _ ha]
      exact Effects.one (.outOfBounds s a ha)
    · rw [memWriteAt_zero _ _ (by omega)]
      exact Effects.one (.store s a v (by omega) hd)
  | succ k ih =>
    by_cases ha : Param.memSize ≤ a
    · rw [memWriteAt_outOfBounds _ _ _ ha]
      exact Effects.one (.outOfBounds s a ha)
    · by_cases hd : a = Reg.dac
      · subst hd
        rw [memWriteAt_dac]
        exact Effects.one (.storeDac s v)
      · have inner : WriterEffects (memWriteAt k) := fun b w t _ hb => ih b w t (.inr hb)
        rw [memWriteAt_succ _ _ _ (by omega)]
        refine (Effects.one (.store s a v (by omega) hd)).trans ?_
        refine (dispatchGpio_effects a (s.byteAt a) v _).trans ?_
        unfold dispatch dispatchAddress
        split
        · exact adcUpdate_effects inner _
        · split
          · exact eepromUpdate_effects inner _
          · split
            · exact uartTransmit_effects inner _ _
            · exact .refl

theorem memWrite_effects (a : Nat) (v : Byte) (s : State) : Effects s (memWrite a v s) :=
  memWriteAt_effects maxNesting a v s (.inl (by decide))

theorem memWrite_writerEffects : WriterEffects memWrite := fun a v s _ _ => memWrite_effects a v s

theorem ticks_effects (n : Nat) (s : State) : Effects s (ticks n s) := by
  induction n generalizing s with
  | zero => exact .refl
  | succ n ih =>
    have one : Effects s (tick s) := by
      simp only [tick]
      split
      · exact (memWrite_effects _ _ _).trans (memWrite_effects _ _ _)
      · exact memWrite_effects _ _ _
    exact one.trans (ih _)

theorem divider_range {cs d : Nat} (h : divider cs = some d) : 0 < d ∧ d ≤ 1024 := by
  unfold divider at h
  split at h <;> simp_all <;> omega

theorem runTimer_effects {d : Nat} (hd : 0 < d ∧ d ≤ 1024) (n : Nat) (s : State) : Effects s (runTimer d n s) := by
  simp only [runTimer]
  split
  · have := Nat.mod_lt (s.acc + n) hd.1
    exact (Effects.one (.accumulate s _ (by omega))).trans (ticks_effects _ _)
  · exact Effects.one (.accumulate s _ (by omega))

theorem timerStep_effects (n : Nat) (s : State) : Effects s (timerStep n s) := by
  unfold timerStep
  split
  · exact .refl
  · exact runTimer_effects (divider_range (by assumption)) n s

theorem clockBranch_effects (cs n : Nat) (s : State) : Effects s (clockBranch cs n s) := by
  unfold clockBranch
  split
  · split
    · exact .refl
    · exact runTimer_effects (divider_range (by assumption)) n s
  · exact .refl

/-- Every instruction that answers a next state ran in a state with no fault mark, and what it did is a sequence of
effects. -/
theorem exec_effects {i : Instr} {s t : State} (h : exec i s = .next t) : s.fault = none ∧ Effects s t := by
  have cond : ∀ {c : Bool} {u : State}, Effects s u → Effects s (if c then u else s) := by
    intro c u hu
    cases c
    · exact .refl
    · exact hu
  cases i <;> simp only [exec, execRead, execWritePinb, execWritePortb, execWritePinc, execWritePortc, execWritePind,
    execWritePortd, execWriteAdcsra, execWriteEecr, execWriteDac, execWriteUdr0, execWrite, execStep, execRxinj,
    execSetain, execDacout, execTccr0bCs0, execTccr0bCs1, execTccr0bCs2, execTccr0bCs3, execTccr0bCs4, execTccr0bCs5,
    execTccr0bCs6, execTccr0bCs7, execEecrRead, execEecrWrite, execEecrWriteDropped, execEecrGateOnly,
    execAdcsraStart, execAdcsraNostart, execAdmuxLeft, execAdmuxRight, execUcsr0bTxen, execUcsr0bTxoff,
    execUcsr0bRxen, execUcsr0bRxoff] at h <;> obtain ⟨hf, rfl⟩ := ifRunning_eq_next h <;> refine ⟨hf, ?_⟩
  case read a =>
    unfold readByte
    split
    · exact Effects.one (.outOfBounds s a (by assumption))
    · exact Effects.one (.answer s _)
  case step => exact timerStep_effects _ _
  case rxinj => exact uartReceive_effects memWrite_writerEffects _ _
  case setain => exact Effects.one (.analog s _)
  case dacout => exact Effects.one (.answer s _)
  case eecrRead => exact cond (eepromRead_effects memWrite_writerEffects _ _)
  case eecrWrite => exact cond (eepromWrite_effects memWrite_writerEffects (eepromAddr_lt s) _)
  case eecrWriteDropped => exact cond (eepromWriteDropped_effects memWrite_writerEffects _)
  case adcsraStart => exact cond (adcConvert_effects memWrite_writerEffects _)
  case admuxLeft => exact cond (adcStoreLeft_effects memWrite_writerEffects _ _)
  case admuxRight => exact cond (adcStoreRight_effects memWrite_writerEffects _ _)
  case ucsr0bTxen => exact cond (uartSend_effects memWrite_writerEffects _ _)
  case ucsr0bRxen => exact cond (uartAccept_effects memWrite_writerEffects _ _)
  all_goals first
    | exact memWrite_effects _ _ _
    | exact clockBranch_effects _ _ _
    | exact .refl

/-- A step that answers a next state either idles, with no transaction waiting, or runs the oldest waiting transaction
on the state without it. -/
theorem step_cases {s t : State} (h : step s = .next t) :
    s.fault = none ∧ ((s.inbox = [] ∧ t = s) ∨
      ∃ r rest i, s.inbox = r :: rest ∧ resolve s r = .ok i ∧ exec i { s with inbox := rest } = .next t) := by
  unfold step at h
  split at h
  · cases h
  · refine ⟨by assumption, ?_⟩
    split at h
    · cases h
      exact .inl ⟨by assumption, rfl⟩
    · split at h
      · exact .inr ⟨_, _, _, by assumption, by assumption, h⟩
      · cases h

/-- What a step can do: leave the state, or drop the oldest request and run a sequence of effects. -/
theorem step_effects {s t : State} (h : step s = .next t) :
    t = s ∨ ∃ r rest, s.inbox = r :: rest ∧ Effects { s with inbox := rest } t := by
  obtain ⟨_, ⟨_, rfl⟩ | ⟨r, rest, i, hi, _, he⟩⟩ := step_cases h
  · exact .inl rfl
  · exact .inr ⟨r, rest, hi, (exec_effects he).2⟩

end Sys2Proof.Machine
end

