-- ==== Sys2Proof/Laws/Encoding.lean ====
section
/-! SUPPORT. The fields of a packed word, the word packed from its fields, and the bits of a word by field. -/

namespace Sys2Proof

theorem toNat_fields (w : BitVec 32) :
    (fieldK w).toNat = w.toNat / 2 ^ 28 ∧ (fieldHi w).toNat = w.toNat / 2 ^ 24 % 2 ^ 4 ∧
      (fieldA w).toNat = w.toNat / 2 ^ 8 % 2 ^ 16 ∧ (fieldD w).toNat = w.toNat % 2 ^ 8 ∧
      (fieldN w).toNat = w.toNat % 2 ^ 28 := by
  have := w.isLt
  simp only [fieldK, fieldHi, fieldA, fieldD, fieldN, BitVec.extractLsb'_toNat, Nat.shiftRight_eq_div_pow]
  refine ⟨?_, trivial, trivial, ?_, ?_⟩ <;> omega

theorem toNat_packWord (k hi : BitVec 4) (a : BitVec 16) (d : Byte) :
    (packWord k hi a d).toNat = k.toNat * 2 ^ 28 + hi.toNat * 2 ^ 24 + a.toNat * 2 ^ 8 + d.toNat := by
  have h1 := k.isLt
  have h2 := hi.isLt
  have h3 := a.isLt
  have h4 := d.isLt
  simp only [packWord, BitVec.toNat_ofNat]
  omega

theorem fields_packWord (k hi : BitVec 4) (a : BitVec 16) (d : Byte) :
    fieldK (packWord k hi a d) = k ∧ fieldHi (packWord k hi a d) = hi ∧ fieldA (packWord k hi a d) = a ∧
      fieldD (packWord k hi a d) = d := by
  have h1 := k.isLt
  have h2 := hi.isLt
  have h3 := a.isLt
  have h4 := d.isLt
  obtain ⟨fk, fh, fa, fd, _⟩ := toNat_fields (packWord k hi a d)
  rw [toNat_packWord] at fk fh fa fd
  refine ⟨?_, ?_, ?_, ?_⟩ <;> apply BitVec.eq_of_toNat_eq <;> omega

theorem fields_packStep (n : Nat) : (fieldK (packStep n)).toNat = 3 ∧ (fieldN (packStep n)).toNat = n % 2 ^ 28 := by
  obtain ⟨fk, _, _, _, fn⟩ := toNat_fields (packStep n)
  have : (packStep n).toNat = 3 * 2 ^ 28 + n % 2 ^ 28 := by
    simp only [packStep, BitVec.toNat_ofNat]
    omega
  omega

/-- A word is packed from its fields. -/
theorem packWord_fields (w : BitVec 32) : packWord (fieldK w) (fieldHi w) (fieldA w) (fieldD w) = w := by
  obtain ⟨fk, fh, fa, fd, _⟩ := toNat_fields w
  apply BitVec.eq_of_toNat_eq
  rw [toNat_packWord, fk, fh, fa, fd]
  omega

theorem packStep_fieldN (w : BitVec 32) (h : (fieldK w).toNat = 3) : packStep (fieldN w).toNat = w := by
  obtain ⟨fk, _, _, _, fn⟩ := toNat_fields w
  apply BitVec.eq_of_toNat_eq
  simp only [packStep, BitVec.toNat_ofNat]
  omega

/-- Masking a packed word masks its fields. -/
theorem packWord_and (k hi k' hi' : BitVec 4) (a a' : BitVec 16) (d d' : Byte) :
    packWord k hi a d &&& packWord k' hi' a' d' = packWord (k &&& k') (hi &&& hi') (a &&& a') (d &&& d') := by
  have app : ∀ (k hi : BitVec 4) (a : BitVec 16) (d : Byte),
      packWord k hi a d = ((k ++ hi ++ a ++ d : BitVec (4 + 4 + 16 + 8)).cast rfl : BitVec 32) := by
    intro k hi a d
    apply BitVec.eq_of_toNat_eq
    have h1 := hi.isLt
    have h2 := a.isLt
    have h3 := d.isLt
    rw [toNat_packWord, BitVec.toNat_cast, BitVec.toNat_append, BitVec.toNat_append, BitVec.toNat_append,
      ← Nat.shiftLeft_add_eq_or_of_lt h3, ← Nat.shiftLeft_add_eq_or_of_lt h2, ← Nat.shiftLeft_add_eq_or_of_lt h1]
    simp only [Nat.shiftLeft_eq]
    omega
  rw [app, app, app, ← BitVec.and_append, ← BitVec.and_append, ← BitVec.and_append]
  rfl

end Sys2Proof
end

