-- ==== Sys2Proof/Laws/PerInstr.lean ====
section
/-! SUPPORT. Statements made per instruction. The family RowMatch: the code of every instruction matches its row of
spec/opcode_table.json (30_encoding.md R85). -/

namespace Sys2Proof

/-- The number a row's mask and match are laid over: the transaction word, or the byte of the control register. -/
def Code.value : Code → BitVec 32
  | .txn w _ => w
  | .reg8 _ b => b.setWidth 32

end Sys2Proof

namespace Sys2Proof.Laws.RowMatch

/-- The code of i matches i's row. -/
def Statement (i : Instr) : Prop := (encode i).value &&& i.row.mask = i.row.pattern

theorem read_row (a : BitVec 16) : packWord 1 0 a 0 &&& 0xFF0000FF#32 = packWord 1 0 0 0 := by
  rw [show 0xFF0000FF#32 = packWord 15 15 0 255 by decide, packWord_and]
  simp

theorem write_row (a : BitVec 16) (d : Byte) : packWord 2 0 a d &&& 0xFF000000#32 = packWord 2 0 0 0 := by
  rw [show 0xFF000000#32 = packWord 15 15 0 0 by decide, packWord_and]
  simp

theorem full_row (k hi : BitVec 4) (a : BitVec 16) (d : Byte) :
    packWord k hi a d &&& 0xFFFFFF00#32 = packWord k hi a 0 := by
  rw [show 0xFFFFFF00#32 = packWord 15 15 0xFFFF 0 by decide, packWord_and]
  have h4 : ∀ x : BitVec 4, x &&& 15 = x := by decide
  have h16 : a &&& 0xFFFF = a := by
    rw [show (0xFFFF : BitVec 16) = BitVec.allOnes 16 by decide, BitVec.and_allOnes]
  rw [h4, h4, h16]
  simp

theorem byte_row (m p : Byte) (h : p &&& m = p) :
    ((byteRow m p).pattern.setWidth 8).setWidth 32 &&& (byteRow m p).mask = (byteRow m p).pattern := by
  have hp : (p.setWidth 32).setWidth 8 = p := by simp
  have : p.setWidth 32 &&& m.setWidth 32 = (p &&& m).setWidth 32 := by
    ext i hi
    simp
  simp only [byteRow, hp, this, h]

theorem step_row (n : Nat) : packStep n &&& 0xF0000000#32 = packWord 3 0 0 0 := by
  rw [← packWord_fields (packStep n), show 0xF0000000#32 = packWord 15 0 0 0 by decide, packWord_and]
  have : fieldK (packStep n) = 3 := BitVec.eq_of_toNat_eq (fields_packStep n).1
  rw [this]
  simp

theorem read (a : Nat) : Statement (.read a) := read_row _

theorem writePinb (d : Byte) : Statement (.writePinb d) := full_row 2 0 _ d

theorem writePortb (d : Byte) : Statement (.writePortb d) := full_row 2 0 _ d

theorem writePinc (d : Byte) : Statement (.writePinc d) := full_row 2 0 _ d

theorem writePortc (d : Byte) : Statement (.writePortc d) := full_row 2 0 _ d

theorem writePind (d : Byte) : Statement (.writePind d) := full_row 2 0 _ d

theorem writePortd (d : Byte) : Statement (.writePortd d) := full_row 2 0 _ d

theorem writeAdcsra (d : Byte) : Statement (.writeAdcsra d) := full_row 2 0 _ d

theorem writeEecr (d : Byte) : Statement (.writeEecr d) := full_row 2 0 _ d

theorem writeDac (d : Byte) : Statement (.writeDac d) := full_row 2 0 _ d

theorem writeUdr0 (d : Byte) : Statement (.writeUdr0 d) := full_row 2 0 _ d

theorem write (a : Nat) (d : Byte) : Statement (.write a d) := write_row _ d

theorem step (n : Nat) : Statement (.step n) := step_row n

theorem rxinj (b : Byte) : Statement (.rxinj b) := full_row 4 0 0 b

theorem setain (v : Rat) : Statement (.setain v) := by
  show packWord 5 0 0 0 &&& 0xFFFFFFFF#32 = packWord 5 0 0 0
  decide

theorem dacout : Statement .dacout := by
  show packWord 6 0 0 0 &&& 0xFFFFFFFF#32 = packWord 6 0 0 0
  decide

theorem tccr0bCs0 (n : Nat) : Statement (.tccr0bCs0 n) := byte_row _ _ (by decide)

theorem tccr0bCs1 (n : Nat) : Statement (.tccr0bCs1 n) := byte_row _ _ (by decide)

theorem tccr0bCs2 (n : Nat) : Statement (.tccr0bCs2 n) := byte_row _ _ (by decide)

theorem tccr0bCs3 (n : Nat) : Statement (.tccr0bCs3 n) := byte_row _ _ (by decide)

theorem tccr0bCs4 (n : Nat) : Statement (.tccr0bCs4 n) := byte_row _ _ (by decide)

theorem tccr0bCs5 (n : Nat) : Statement (.tccr0bCs5 n) := byte_row _ _ (by decide)

theorem tccr0bCs6 (n : Nat) : Statement (.tccr0bCs6 n) := byte_row _ _ (by decide)

theorem tccr0bCs7 (n : Nat) : Statement (.tccr0bCs7 n) := byte_row _ _ (by decide)

theorem eecrRead : Statement .eecrRead := byte_row _ _ (by decide)

theorem eecrWrite : Statement .eecrWrite := byte_row _ _ (by decide)

theorem eecrWriteDropped : Statement .eecrWriteDropped := byte_row _ _ (by decide)

theorem eecrGateOnly : Statement .eecrGateOnly := byte_row _ _ (by decide)

theorem adcsraStart : Statement .adcsraStart := byte_row _ _ (by decide)

theorem adcsraNostart : Statement .adcsraNostart := byte_row _ _ (by decide)

theorem admuxLeft (r : BitVec 10) : Statement (.admuxLeft r) := byte_row _ _ (by decide)

theorem admuxRight (r : BitVec 10) : Statement (.admuxRight r) := byte_row _ _ (by decide)

theorem ucsr0bTxen (new : Byte) : Statement (.ucsr0bTxen new) := byte_row _ _ (by decide)

theorem ucsr0bTxoff (new : Byte) : Statement (.ucsr0bTxoff new) := byte_row _ _ (by decide)

theorem ucsr0bRxen (b : Byte) : Statement (.ucsr0bRxen b) := byte_row _ _ (by decide)

theorem ucsr0bRxoff (b : Byte) : Statement (.ucsr0bRxoff b) := byte_row _ _ (by decide)

end Sys2Proof.Laws.RowMatch
end

