-- ==== Sys2Proof/Laws/Requests.lean ====
section
/-! SUPPORT. What the second half of SETB and CLRB reads back (30_encoding.md R75). -/

namespace Sys2Proof.Machine

/-- A READ of the offset answers for it; any other answer leaves what was found before. -/
theorem lastRead_cons (x : Answer) (xs : List Answer) (a : Nat) :
    lastRead (x :: xs) a = (lastRead xs a).or (lastRead [x] a) := by
  have from_found : ∀ (xs : List Answer) (found : Option Byte),
      xs.foldl (fun found x =>
        match x with
        | .read b v => if b = a then some v else found
        | .dacOut _ _ => found) found = (lastRead xs a).or found := by
    intro xs
    induction xs with
    | nil => intro found; rfl
    | cons y ys ih =>
      intro found
      refine (ih _).trans (Eq.trans ?_ (congrArg (Option.or · found) (ih _).symm))
      cases y with
      | read b v => by_cases h : b = a <;> cases lastRead ys a <;> simp [h]
      | dacOut b v => cases lastRead ys a <;> rfl
  exact from_found xs _

theorem lastRead_append (xs ys : List Answer) (a : Nat) :
    lastRead (xs ++ ys) a = (lastRead ys a).or (lastRead xs a) := by
  induction xs with
  | nil => exact (Option.or_none).symm
  | cons x xs ih => rw [List.cons_append, lastRead_cons, ih, lastRead_cons x xs, Option.or_assoc]

/-- No answer of a READ of offset a: nothing to write back. -/
theorem lastRead_none {xs : List Answer} {a : Nat} (h : ∀ x, .read a x ∉ xs) : lastRead xs a = none := by
  induction xs with
  | nil => rfl
  | cons y ys ih =>
    have tail := ih fun x hx => h x (List.mem_cons_of_mem y hx)
    rw [lastRead_cons, tail, Option.none_or]
    cases y with
    | read b v =>
      have ne : b ≠ a := fun e => h v (by simp [e])
      simp [lastRead, ne]
    | dacOut b v => rfl

/-- The last answer of a READ of offset a, with none after it. -/
theorem lastRead_last (xs : List Answer) {ys : List Answer} {a : Nat} (x : Byte) (h : ∀ y, .read a y ∉ ys) :
    lastRead (xs ++ .read a x :: ys) a = some x := by
  rw [lastRead_append, lastRead_cons, lastRead_none h]
  simp [lastRead]

end Sys2Proof.Machine
end

