-- ==== Sys2Proof/Laws/Timer.lean ====
section
/-! SUPPORT. The timer's stores said as plain stores, and its update without the case split (41_timer.md). -/

namespace Sys2Proof.Machine

/-- The stores of one tick (41_timer.md R113): neither offset selects an update. -/
theorem tick_record (s : State) :
    tick s =
      if s.byteAt Reg.tcnt0 = 255#8 then
        (s.record Reg.tcnt0 0#8).record Reg.tifr0 (withBit (s.byteAt Reg.tifr0) Bit.tov)
      else s.record Reg.tcnt0 (s.byteAt Reg.tcnt0 + 1#8) := by
  simp only [tick, setb, memWrite]
  rw [memWriteAt_plain _ _ _ (by decide) (by decide), memWriteAt_plain _ _ _ (by decide) (by decide),
    memWriteAt_plain _ _ _ (by decide) (by decide), State.byteAt_record_ne _ _ (by decide)]

/-- A running STEP is the ticks of the quotient after the remainder is kept, also where the quotient is 0
(41_timer.md R112). -/
theorem runTimer_eq (d n : Nat) (s : State) :
    runTimer d n s = ticks ((s.acc + n) / d) { s with acc := (s.acc + n) % d } := by
  simp only [runTimer]
  split
  · rfl
  · rw [Nat.div_eq_of_lt (by omega), Nat.mod_eq_of_lt (by omega)]
    rfl

/-- Ticks compose. -/
theorem ticks_add (n m : Nat) (s : State) : ticks (n + m) s = ticks m (ticks n s) := by
  induction n generalizing s with
  | zero => simp [ticks]
  | succ n ih => rw [Nat.add_right_comm, ticks, ticks, ih]

end Sys2Proof.Machine
end

