-- ==== Sys2Proof/Tests/Slice0.lean ====
section
/-! SUPPORT. Tests: ill-formed terms, words written out bit by bit from 30_encoding.md, vectors of 95_test_vectors.md one
step each, and for every statement with hypotheses a named witness that meets them. -/

namespace Sys2Proof.Tests

open Sys2Proof.Machine

/-! Helpers. -/

/-- Reset with the listed bytes of M instead of their reset bytes. -/
def start (cells : List Host.Cell) : State := { State.reset with mem := cells }

/-- The bytes of M at the listed offsets in the next state. -/
def bytes (r : Result) (offsets : List Nat) : Option (List Byte) :=
  match r with
  | .next t => some (offsets.map t.byteAt)
  | .fault _ => none
  | .refused _ => none

/-- The trace of the next state. -/
def events (r : Result) : Option (List Event) :=
  match r with
  | .next t => some t.trace
  | .fault _ => none
  | .refused _ => none

/-- A field of the next state. -/
def field {α : Type} (r : Result) (f : State → α) : Option α :=
  match r with
  | .next t => some (f t)
  | .fault _ => none
  | .refused _ => none

/-- The next state, or the state itself where there is none: the state a witness goes on from. -/
def goOn (i : Instr) (s : State) : State :=
  match exec i s with
  | .next t => t
  | .fault _ => s
  | .refused _ => s

/-! WellFormed: one ill-formed term for each check, and the last well-formed value beside it. -/

theorem test_wellFormed_read_offset :
    (Instr.read 0x10000).wellFormed = false ∧ (Instr.read 0xFFFF).wellFormed = true := by decide

theorem test_wellFormed_write_offset :
    (Instr.write 0x10000 0).wellFormed = false ∧ (Instr.write 0xFFFF 0).wellFormed = true := by decide

theorem test_wellFormed_write_row :
    (Instr.write 0x3F 0).wellFormed = false ∧ (Instr.write 0x40 0).wellFormed = true := by decide

theorem test_wellFormed_step_cycles :
    (Instr.step 0x10000000).wellFormed = false ∧ (Instr.step 0xFFFFFFF).wellFormed = true := by decide

/-! Decode: fields K, 0, A, D or K, N of R71, bit by bit. -/

theorem test_decode_read :
    decodeTxn 0b0001_0000_0000000001000110_00000000#32 0 = .ok (.read 0x46) := by decide

theorem test_decode_writePinb :
    decodeTxn 0b0010_0000_0000000000100011_10000001#32 0 = .ok (.writePinb 0x81#8) := by decide

theorem test_decode_writePortb :
    decodeTxn 0b0010_0000_0000000000100101_00100000#32 0 = .ok (.writePortb 0x20#8) := by decide

theorem test_decode_writePinc :
    decodeTxn 0b0010_0000_0000000000100110_10000001#32 0 = .ok (.writePinc 0x81#8) := by decide

theorem test_decode_writePortc :
    decodeTxn 0b0010_0000_0000000000101000_10000001#32 0 = .ok (.writePortc 0x81#8) := by decide

theorem test_decode_writePind :
    decodeTxn 0b0010_0000_0000000000101001_10000001#32 0 = .ok (.writePind 0x81#8) := by decide

theorem test_decode_writePortd :
    decodeTxn 0b0010_0000_0000000000101011_10000001#32 0 = .ok (.writePortd 0x81#8) := by decide

theorem test_decode_writeAdcsra :
    decodeTxn 0b0010_0000_0000000001111010_01000000#32 0 = .ok (.writeAdcsra 0x40#8) := by decide

theorem test_decode_writeEecr :
    decodeTxn 0b0010_0000_0000000000111111_00000110#32 0 = .ok (.writeEecr 0x06#8) := by decide

theorem test_decode_writeDac :
    decodeTxn 0b0010_0000_0000000011111110_10000000#32 0 = .ok (.writeDac 0x80#8) := by decide

theorem test_decode_writeUdr0 :
    decodeTxn 0b0010_0000_0000000011000110_01000001#32 0 = .ok (.writeUdr0 0x41#8) := by decide

/-- L2 F.3. -/
theorem test_decode_write :
    decodeTxn 0b0010_0000_0000100011111111_00010001#32 0 = .ok (.write 0x8FF 0x11#8) := by decide

theorem test_decode_step :
    decodeTxn 0b0011_0000000000000000000100000000#32 0 = .ok (.step 256) := by decide

theorem test_decode_rxinj :
    decodeTxn 0b0100_0000_0000000000000000_01010101#32 0 = .ok (.rxinj 0x55#8) := by decide

theorem test_decode_setain :
    decodeTxn 0b0101_0000_0000000000000000_00000000#32 (mkRat 5 2) = .ok (.setain (mkRat 5 2)) := by decide

theorem test_decode_dacout :
    decodeTxn 0b0110_0000_0000000000000000_00000000#32 0 = .ok .dacout := by decide

/-- CS is TCCR0B[2:0] and the other five bits take no part (R77; L2 T.14). -/
theorem test_decode_tccr0b :
    decodeCommands (.clockSelect 9) 0b00000000#8 = [.tccr0bCs0 9] ∧
      decodeCommands (.clockSelect 9) 0b11111001#8 = [.tccr0bCs1 9] ∧
      decodeCommands (.clockSelect 9) 0b00000010#8 = [.tccr0bCs2 9] ∧
      decodeCommands (.clockSelect 9) 0b00000011#8 = [.tccr0bCs3 9] ∧
      decodeCommands (.clockSelect 9) 0b00000100#8 = [.tccr0bCs4 9] ∧
      decodeCommands (.clockSelect 9) 0b00000101#8 = [.tccr0bCs5 9] ∧
      decodeCommands (.clockSelect 9) 0b00000110#8 = [.tccr0bCs6 9] ∧
      decodeCommands (.clockSelect 9) 0b11111111#8 = [.tccr0bCs7 9] := by decide

/-- EERE is bit 0, EEWE bit 1, EEMWE bit 2; several rows may match one byte (R78, R85). -/
theorem test_decode_eecr :
    decodeCommands .eeprom 0b00000001#8 = [.eecrRead] ∧ decodeCommands .eeprom 0b00000110#8 = [.eecrWrite] ∧
      decodeCommands .eeprom 0b00000010#8 = [.eecrWriteDropped] ∧
      decodeCommands .eeprom 0b00000100#8 = [.eecrGateOnly] ∧
      decodeCommands .eeprom 0b00000111#8 = [.eecrRead, .eecrWrite] ∧
      decodeCommands .eeprom 0b11111000#8 = [] := by decide

/-- ADSC is bit 6 of ADCSRA, ADLAR bit 5 of ADMUX (R79; L2 A.15). -/
theorem test_decode_adc :
    decodeCommands .adcStart 0b01000000#8 = [.adcsraStart] ∧ decodeCommands .adcStart 0b10111111#8 = [.adcsraNostart] ∧
      decodeCommands (.adcLayout 7) 0b00100000#8 = [.admuxLeft 7] ∧
      decodeCommands (.adcLayout 7) 0b11011111#8 = [.admuxRight 7] := by decide

/-- TXEN is bit 3 and RXEN bit 4 of UCSR0B, each tested by itself (R80). -/
theorem test_decode_ucsr0b :
    decodeCommands (.transmit 0x41) 0b00001000#8 = [.ucsr0bTxen 0x41] ∧
      decodeCommands (.transmit 0x41) 0b11110111#8 = [.ucsr0bTxoff 0x41] ∧
      decodeCommands (.receive 0x41) 0b00010000#8 = [.ucsr0bRxen 0x41] ∧
      decodeCommands (.receive 0x41) 0b11101111#8 = [.ucsr0bRxoff 0x41] := by decide

/-- L2 F.4 to F.7 and F.9: reserved kinds and zero fields. -/
theorem test_decode_reserved :
    decodeTxn 0x00000000#32 0 = .error .reservedKind ∧ decodeTxn 0x70000000#32 0 = .error .reservedKind ∧
      decodeTxn 0x10004601#32 0 = .error .nonZeroField ∧ decodeTxn 0x21004600#32 0 = .error .nonZeroField ∧
      decodeTxn 0x40010055#32 0 = .error .nonZeroField := by decide

/-- R84: the encoder writes the words of the encoding examples. -/
theorem test_encode_examples :
    encode (.writeEecr 0x06) = .txn 0x20003F06#32 0 ∧ encode (.read 0x46) = .txn 0x10004600#32 0 ∧
      encode (.step 256) = .txn 0x30000100#32 0 ∧ encode (.rxinj 0x55) = .txn 0x40000055#32 0 ∧
      encode (.setain (mkRat 5 2)) = .txn 0x50000000#32 (mkRat 5 2) ∧ encode .dacout = .txn 0x60000000#32 0 ∧
      encode (.writePortb 0x20) = .txn 0x20002520#32 0 ∧ encode (.writeUdr0 0x41) = .txn 0x2000C641#32 0 := by decide

/-- A mask and a match of spec/opcode_table.json of each format. -/
theorem test_rows :
    (Instr.read 0).row = ⟨0xFF0000FF#32, 0x10000000#32⟩ ∧ (Instr.writeUdr0 0).row = ⟨0xFFFFFF00#32, 0x2000C600#32⟩ ∧
      (Instr.write 0 0).row = ⟨0xFF000000#32, 0x20000000#32⟩ ∧ (Instr.step 0).row = ⟨0xF0000000#32, 0x30000000#32⟩ ∧
      (Instr.tccr0bCs5 0).row = ⟨0x07#32, 0x05#32⟩ ∧ Instr.eecrGateOnly.row = ⟨0x07#32, 0x04#32⟩ ∧
      Instr.eecrWriteDropped.row = ⟨0x06#32, 0x02#32⟩ ∧ (Instr.ucsr0bRxoff 0).row = ⟨0x10#32, 0x00#32⟩ := by decide

/-! READ, WRITE, the DAC (L2.D, L2.F). -/

/-- R91 example: with M[0x46] = 0x10, READ TCNT0 returns 0x10. -/
theorem test_read : field (exec (.read 0x46) (start [(0x46, 0x10#8)])) (·.answers) = some [.read 0x46 0x10#8] := by decide

/-- F.1: the fault records the offset and no answer is given. -/
theorem test_read_out_of_bounds :
    field (exec (.read 0x900) State.reset) (fun t => (t.fault, t.answers)) = some (some 0x900, []) := by decide

/-- D.4: a plain offset. -/
theorem test_write : events (exec (.write 0x60 0xAA) State.reset) = some [.memChange 0x60 0x00 0xAA] := by decide

/-- F.2: nothing is stored and nothing emitted. -/
theorem test_write_out_of_bounds :
    field (exec (.write 0x900 0x01) State.reset) (fun t => (t.fault, t.mem, t.trace)) = some (some 0x900, [], []) := by
  decide

/-- D.1. -/
theorem test_writeDac :
    field (exec (.writeDac 0x80) State.reset) (fun t => (t.dac, t.byteAt 0xFE)) = some (0x80#8, 0x80#8) := by decide

/-- D.1: 128 / 51 V. -/
theorem test_dacout :
    field (exec .dacout { State.reset with dac := 0x80#8 }) (·.answers) = some [.dacOut 0x80#8 (mkRat 128 51)] := by decide

/-- D.2: 255 gives exactly 5 V. -/
theorem test_dacout_full :
    field (exec .dacout { State.reset with dac := 0xFF#8 }) (·.answers) = some [.dacOut 0xFF#8 5] := by decide

/-! The timer (L2.T). -/

/-- T.7: one STEP over a wrap. -/
theorem test_step :
    events (exec (.step 3) (start [(0x45, 0x01#8), (0x46, 0xFE#8)])) =
      some [.memChange 0x46 0xFE 0xFF, .memChange 0x46 0xFF 0x00, .memChange 0x35 0x00 0x01,
        .memChange 0x46 0x00 0x01] := by decide

/-- T.13: after CS changes to a smaller divider, STEP 0 ticks. -/
theorem test_step_zero :
    field (exec (.step 0) { start [(0x45, 0x01#8)] with acc := 7 }) (fun t => (t.byteAt 0x46, t.acc)) =
      some (0x07#8, 0) := by decide

/-- T.1: inert, the cycles are lost. -/
theorem test_tccr0bCs0 :
    field (exec (.tccr0bCs0 1000) State.reset) (fun t => (t.acc, t.trace)) = some (0, []) := by decide

/-- T.15: the wrap keeps the other bits of TIFR0. -/
theorem test_tccr0bCs1 :
    bytes (exec (.tccr0bCs1 1) (start [(0x35, 0x06#8), (0x45, 0x01#8), (0x46, 0xFF#8)])) [0x46, 0x35] =
      some [0x00#8, 0x07#8] := by decide

/-- T.3. -/
theorem test_tccr0bCs2 :
    field (exec (.tccr0bCs2 7) (start [(0x45, 0x02#8)])) (fun t => (t.acc, t.trace)) = some (7, []) := by decide

/-- T.5. -/
theorem test_tccr0bCs3 :
    field (exec (.tccr0bCs3 130) (start [(0x45, 0x03#8)])) (fun t => (t.acc, t.byteAt 0x46)) = some (2, 0x02#8) := by decide

/-- T.17. -/
theorem test_tccr0bCs4 :
    field (exec (.tccr0bCs4 0) (start [(0x45, 0x04#8)])) (fun t => (t.acc, t.trace)) = some (0, []) := by decide

/-- By hand from R112: 1030 cycles under divider 1024 are one tick and 6 over. -/
theorem test_tccr0bCs5 :
    field (exec (.tccr0bCs5 1030) (start [(0x45, 0x05#8)])) (fun t => (t.acc, t.byteAt 0x46)) = some (6, 0x01#8) := by decide

/-- T.11. -/
theorem test_tccr0bCs6 :
    field (exec (.tccr0bCs6 5) (start [(0x45, 0x06#8)])) (fun t => (t.acc, t.trace)) = some (0, []) := by decide

/-- T.12. -/
theorem test_tccr0bCs7 :
    field (exec (.tccr0bCs7 5) { start [(0x45, 0x07#8)] with acc := 3 }) (fun t => (t.acc, t.trace)) = some (3, []) := by
  decide

/-! The EEPROM (L2.E). -/

/-- EEAR 0x0005, E[5] = 0xAB, EECR as given. -/
def eepromStart (eecr : Byte) : State :=
  { start [(0x3F, eecr), (0x41, 0x05#8)] with eeprom := [(5, 0xAB#8)] }

/-- E.1: the trace of a read command. -/
theorem test_writeEecr_read :
    events (exec (.writeEecr 0x01) { start [(0x41, 0x05#8)] with eeprom := [(5, 0xAB#8)] }) =
      some [.memChange 0x3F 0x00 0x01, .memChange 0x40 0x00 0xAB, .memChange 0x3F 0x01 0x00] := by decide

/-- E.7: address 0xFFFF wraps to 0x3FF. -/
theorem test_writeEecr_write :
    field (exec (.writeEecr 0x06) (start [(0x40, 0x77#8), (0x41, 0xFF#8), (0x42, 0xFF#8)]))
      (fun t => (t.eeprom, t.byteAt 0x3F)) = some ([(0x3FF, 0x77#8)], 0x00#8) := by decide

/-- E.11: the other bits of EECR are kept. -/
theorem test_eecrRead : bytes (exec .eecrRead (eepromStart 0x31)) [0x40, 0x3F] = some [0xAB#8, 0x30#8] := by decide

/-- E.2. -/
theorem test_eecrWrite :
    field (exec .eecrWrite (start [(0x3F, 0x06#8), (0x40, 0x5A#8), (0x41, 0x10#8)])) (fun t => (t.eeprom, t.byteAt 0x3F)) =
      some ([(0x10, 0x5A#8)], 0x00#8) := by decide

/-- L1.1: v = 0xFA leaves EECR = 0xF8 and E as it was. -/
theorem test_eecrWriteDropped :
    field (exec .eecrWriteDropped (eepromStart 0xFA)) (fun t => (t.eeprom, t.byteAt 0x3F)) =
      some ([(5, 0xAB#8)], 0xF8#8) := by decide

/-- E.4: the gate stays armed. -/
theorem test_eecrGateOnly : bytes (exec .eecrGateOnly (eepromStart 0x04)) [0x3F, 0x40] = some [0x04#8, 0x00#8] := by decide

/-! The ADC (L2.A). -/

/-- A.1 with its trace. -/
theorem test_writeAdcsra :
    events (exec (.writeAdcsra 0x40) { State.reset with ain := 5 }) =
      some [.memChange 0x7A 0x00 0x40, .memChange 0x78 0x00 0xFF, .memChange 0x79 0x00 0x03,
        .memChange 0x7A 0x40 0x10] := by decide

/-- A.10: the other bits of ADCSRA are kept. -/
theorem test_writeAdcsra_bits : bytes (exec (.writeAdcsra 0xC7) State.reset) [0x7A] = some [0x97#8] := by decide

/-- A.3 left-adjusted: a tie goes to the even 512. -/
theorem test_adcsraStart :
    bytes (exec .adcsraStart { start [(0x7A, 0x40#8), (0x7C, 0x20#8)] with ain := mkRat 5 2 }) [0x78, 0x79, 0x7A] =
      some [0x00#8, 0x80#8, 0x10#8] := by decide

/-- A.11. -/
theorem test_adcsraNostart :
    field (exec .adcsraNostart { start [(0x7A, 0x10#8)] with ain := 5 }) (fun t => (t.byteAt 0x7A, t.trace)) =
      some (0x10#8, []) := by decide

/-- A.5: r = 675 left-adjusted. -/
theorem test_admuxLeft :
    bytes (exec (.admuxLeft 675) (start [(0x7C, 0x20#8)])) [0x78, 0x79] = some [0xC0#8, 0xA8#8] := by decide

/-- A.5: r = 675 right-adjusted. -/
theorem test_admuxRight : bytes (exec (.admuxRight 675) State.reset) [0x78, 0x79] = some [0xA3#8, 0x02#8] := by decide

/-- A.1, A.4 to A.9: the quantizer's column r. -/
theorem test_adcQuant :
    [5, 1, mkRat 33 10, -1, 7, mkRat 5 2046, mkRat 15 2046].map adcQuant = [1023, 205, 675, 0, 1023, 0, 2] := by decide

/-- A.14: SETAIN converts nothing. -/
theorem test_setain :
    field (exec (.setain (-1)) State.reset) (fun t => (t.ain, t.trace)) = some (-1, []) := by decide

/-! The UART (L2.U). -/

/-- U.2. -/
theorem test_writeUdr0 :
    events (exec (.writeUdr0 0x41) (start [(0xC1, 0x08#8)])) =
      some [.memChange 0xC6 0x00 0x41, .uartTx 0x41, .memChange 0xC0 0x20 0x60] := by decide

/-- U.1. -/
theorem test_writeUdr0_off :
    field (exec (.writeUdr0 0x41) State.reset) (fun t => (t.trace, t.byteAt 0xC0)) =
      some ([.memChange 0xC6 0x00 0x41], 0x20#8) := by decide

/-- U.7: the receive echoes. -/
theorem test_rxinj :
    events (exec (.rxinj 0x55) (start [(0xC1, 0x18#8)])) =
      some [.memChange 0xC6 0x00 0x55, .uartTx 0x55, .memChange 0xC0 0x20 0x60, .memChange 0xC0 0x60 0xE0] := by decide

/-- U.6: dropped. -/
theorem test_rxinj_off :
    field (exec (.rxinj 0x55) (start [(0xC1, 0x08#8)])) (fun t => (t.trace, t.byteAt 0xC6)) = some ([], 0x00#8) := by decide

/-- U.11: RXC is kept. -/
theorem test_ucsr0bTxen :
    bytes (exec (.ucsr0bTxen 0x41) (start [(0xC0, 0x80#8), (0xC1, 0x08#8)])) [0xC0] = some [0xE0#8] := by decide

/-- U.1: no event. -/
theorem test_ucsr0bTxoff : events (exec (.ucsr0bTxoff 0x41) State.reset) = some [] := by decide

/-- U.5. -/
theorem test_ucsr0bRxen :
    bytes (exec (.ucsr0bRxen 0x55) (start [(0xC1, 0x10#8)])) [0xC6, 0xC0] = some [0x55#8, 0xA0#8] := by decide

/-- U.6: dropped. -/
theorem test_ucsr0bRxoff : bytes (exec (.ucsr0bRxoff 0x55) State.reset) [0xC6, 0xC0] = some [0x00#8, 0x20#8] := by decide

/-! GPIO (L2.G). -/

/-- L1.6. -/
theorem test_writePortb :
    events (exec (.writePortb 0x20) State.reset) =
      some [.memChange 0x25 0x00 0x20, .portChange .B 0x00 0x20, .pinChange .B 0x01 false false,
        .pinChange .B 0x02 false false, .pinChange .B 0x04 false false, .pinChange .B 0x08 false false,
        .pinChange .B 0x10 false false, .pinChange .B 0x20 false true, .pinChange .B 0x40 false false,
        .pinChange .B 0x80 false false] := by decide

/-- G.2: the same byte again. -/
theorem test_writePortb_same :
    events (exec (.writePortb 0x20) (start [(0x25, 0x20#8)])) =
      some [.memChange 0x25 0x20 0x20, .portChange .B 0x20 0x20] := by decide

/-- R191: a write of PINB gives events of the same shape as one of PORTB. -/
theorem test_writePinb :
    (events (exec (.writePinb 0x20) State.reset)).map (·.drop 1) =
      (events (exec (.writePortb 0x20) State.reset)).map (·.drop 1) := by decide

/-- G.3: seven pins. -/
theorem test_writePinc :
    events (exec (.writePinc 0xFF) State.reset) =
      some ([.memChange 0x26 0x00 0xFF, .portChange .C 0x00 0xFF] ++
        [0x01, 0x02, 0x04, 0x08, 0x10, 0x20, 0x40].map fun m => .pinChange .C m false true) := by decide

/-- G.4: bit 7 is no pin of port C. -/
theorem test_writePortc :
    events (exec (.writePortc 0x80) State.reset) =
      some ([.memChange 0x28 0x00 0x80, .portChange .C 0x00 0x80] ++
        [0x01, 0x02, 0x04, 0x08, 0x10, 0x20, 0x40].map fun m => .pinChange .C m false false) := by decide

/-- G.7: only mask 0x08 changes. -/
theorem test_writePind :
    (events (exec (.writePind 0x08) State.reset)).map (fun es =>
      (es.length, es.contains (.pinChange .D 0x08 false true), es.contains (.pinChange .D 0x04 false false))) =
        some (10, true, true) := by decide

/-- G.6. -/
theorem test_writePortd :
    events (exec (.writePortd 0x01) (start [(0x2B, 0x81#8)])) =
      some ([.memChange 0x2B 0x81 0x01, .portChange .D 0x81 0x01, .pinChange .D 0x01 true true] ++
        [0x02, 0x04, 0x08, 0x10, 0x20, 0x40].map (fun m => .pinChange .D m false false) ++
        [.pinChange .D 0x80 true false]) := by decide

/-- G.8. -/
theorem test_pinViews :
    (fun s => (pinDirection s .B 0x20, pinOutput s .B 0x20, pinInput s .B 0x20))
      (start [(0x24, 0x20#8), (0x25, 0x20#8)]) = (true, true, false) := by decide

/-! The step and table words. -/

/-- F.4: a reserved word is refused, by name. -/
theorem test_step_refuses :
    step { State.reset with inbox := [.word 0x00000000#32 0] } = .refused (.reservedWord 0x00000000#32) := rfl

/-- U.7 and R252: a receive with echo between the halves of CLRB UCSR0A, 5 leaves UCSR0A = 0x00 and UDR0 = 0x55. -/
theorem test_receive_between_halves :
    bytes (step (goOn (.rxinj 0x55) (goOn (.read 0xC0) { start [(0xC1, 0x18#8)] with inbox := [.clearBack 0xC0 5] })))
      [0xC0, 0xC6] = some [0x00#8, 0x55#8] := by decide

/-- R75: SETB UCSR0B, 3 from reset stores 0x08. -/
theorem test_setb :
    bytes (step (goOn (.read 0xC1) { State.reset with inbox := [.setBack 0xC1 3] })) [0xC1] = some [0x08#8] := by decide

/-- A table word runs as the first instruction after reset. -/
theorem test_withFetchWord :
    bytes (step (State.reset.withFetchWord 32 0x20006000)) [0x60] = some [0x00#8] ∧
      decodeTableWord 32 0x20006000 = some (.write 0x60 0) ∧ decodeTableWord 8 0x07 = some (.tccr0bCs7 0) := by decide

/-! Witnesses: for every statement with hypotheses, a concrete state and operands that meet them all, each clause at a
boundary of its range. `witness_<Name>` is the witness of `Obligations.<Name>`. -/

theorem witness_EncodeThenDecodeIsIdentity :
    ∀ i ∈ [Instr.read 0xFFFF, .write 0xFFFF 0xFF, .write 0x00 0x00, .step 0xFFFFFFF, .rxinj 0xFF, .setain (-1),
      .tccr0bCs7 9, .admuxLeft 1023], i.wellFormed = true := by decide

theorem witness_DecodedWordIsItsCode :
    decodeTxn 0x10FFFF00#32 0 = .ok (.read 0xFFFF) ∧ decodeTxn 0x20FFFFFF#32 0 = .ok (.write 0xFFFF 0xFF) ∧
      decodeTxn 0x3FFFFFFF#32 0 = .ok (.step 0xFFFFFFF) ∧ decodeTxn 0x400000FF#32 0 = .ok (.rxinj 0xFF) ∧
      decodeTxn 0x50000000#32 (-1) = .ok (.setain (-1)) ∧ decodeTxn 0x60000000#32 0 = .ok .dacout := by decide

/-- Every kind that is reserved at an end of its range, and every zero field with one bit set at an end of it. -/
theorem witness_ReservedWordsAreRefused :
    decodeTxn 0x00000000#32 0 = .error .reservedKind ∧
      decodeTxn 0x0FFFFFFF#32 0 = .error .reservedKind ∧
      decodeTxn 0x70000000#32 0 = .error .reservedKind ∧
      decodeTxn 0xFFFFFFFF#32 0 = .error .reservedKind ∧
      decodeTxn 0x10000001#32 0 = .error .nonZeroField ∧
      decodeTxn 0x18000000#32 0 = .error .nonZeroField ∧
      decodeTxn 0x21000000#32 0 = .error .nonZeroField ∧
      decodeTxn 0x28000000#32 0 = .error .nonZeroField ∧
      decodeTxn 0x40000100#32 0 = .error .nonZeroField ∧
      decodeTxn 0x48000000#32 0 = .error .nonZeroField ∧
      decodeTxn 0x50000001#32 0 = .error .nonZeroField ∧
      decodeTxn 0x58000000#32 0 = .error .nonZeroField ∧
      decodeTxn 0x60000001#32 0 = .error .nonZeroField ∧
      decodeTxn 0x68000000#32 0 = .error .nonZeroField := by
  refine ⟨?_, ?_, ?_, ?_, ?_, ?_, ?_, ?_, ?_, ?_, ?_, ?_, ?_, ?_⟩ <;> rfl

theorem witness_UpdatesRunTheSelectedCommands :
    (start [(0x3F, 0x07#8), (0x45, 0x05#8), (0x7A, 0x40#8), (0x7C, 0x20#8), (0xC1, 0x18#8)]).Running := by decide

/-- One unselected row at each command point. -/
theorem witness_UnselectedCommandsDoNothing :
    State.reset.Running ∧
      ∀ x ∈ [(CommandPoint.clockSelect 1, Instr.tccr0bCs7 1), (.eeprom, .eecrRead), (.eeprom, .eecrGateOnly),
        (.adcStart, .adcsraStart), (.adcLayout 1023, .admuxLeft 1023), (.transmit 1, .ucsr0bTxen 1),
        (.receive 1, .ucsr0bRxen 1)],
      x.2 ∈ x.1.branches ∧ x.2.selects (State.reset.byteAt x.1.register) = false := by decide

/-- The clauses: nothing waiting, a word that decodes, a reserved word, a line of assembler, a line that is no
transaction, a second half with an answer, here after an older one of the same offset, and one without. -/
theorem witness_StepRunsTheDecodedTransaction :
    State.reset.Running ∧ State.reset.inbox = [] ∧ decodeTxn 0x3FFFFFFF#32 0 = .ok (.step 0xFFFFFFF) ∧
      decodeTxn 0xFFFFFFFF#32 0 = .error .reservedKind ∧ (Instr.step 0x10000000).isTransaction = true ∧
      Instr.eecrRead.isTransaction = false ∧
      (∃ s : State, s.Running ∧ s.answers = [.read 0xC1 0x00#8] ++ .read 0xC1 0x10#8 :: [.dacOut 0x00#8 0] ∧
        (∀ y, Answer.read 0xC1 y ∉ [Answer.dacOut 0x00#8 0]) ∧ s.inbox = .setBack 0xC1 7 :: [.clearBack 0xC1 0]) ∧
      ∃ s : State, s.Running ∧ (∀ x, Answer.read 0xC1 x ∉ s.answers) ∧ s.inbox = .clearBack 0xC1 0 :: [] :=
  ⟨by decide, by decide, by decide, by decide, by decide, by decide,
    ⟨{ State.reset with
        answers := [.read 0xC1 0x00#8, .read 0xC1 0x10#8, .dacOut 0x00#8 0]
        inbox := [.setBack 0xC1 7, .clearBack 0xC1 0] }, rfl, rfl, by simp, rfl⟩,
    { State.reset with answers := [.read 0xC0 0x20#8], inbox := [.clearBack 0xC1 0] }, rfl, by simp, rfl⟩

/-- A READ of the last offset; the expansions at the last offset and at EECR, where the byte changes itself. -/
theorem witness_SetbAndClrbWriteBackTheReadByte :
    0x8FF < Param.memSize ∧ Reg.eecr < Param.memSize ∧ (∃ t, exec (.read 0x8FF) State.reset = .next t) ∧
      (∃ s : State, s.Running ∧ s.inbox = expandSetb 0x8FF 7 ++ [.line .dacout]) ∧
      (∃ s : State, s.Running ∧ s.inbox = expandSetb Reg.eecr 0 ++ []) ∧
      ∃ s : State, s.Running ∧ s.inbox = expandClrb 0x8FF 0 ++ [] :=
  ⟨by decide, by decide, ⟨_, rfl⟩, ⟨{ State.reset with inbox := expandSetb 0x8FF 7 ++ [.line .dacout] }, rfl, rfl⟩,
    ⟨{ State.reset with inbox := expandSetb Reg.eecr 0 ++ [] }, rfl, rfl⟩,
    { State.reset with inbox := expandClrb 0x8FF 0 ++ [] }, rfl, rfl⟩

/-- SETB and CLRB of UCSR0A and of UDR0 with a receive between their halves, RXEN and TXEN set. -/
theorem witness_ReceiveBetweenHalvesLosesItsFlag :
    let s := start [(0xC1, 0x18#8)]
    bitOf (s.byteAt Reg.ucsr0b) Bit.rxen = true ∧ bitOf (s.byteAt Reg.ucsr0b) Bit.txen = true ∧
      (∃ s1 s2 s3 w, exec (.read Reg.ucsr0a) s = .next s1 ∧ exec (.rxinj 0x55) s1 = .next s2 ∧
        resolve s2 (.setBack Reg.ucsr0a 0) = .ok w ∧ exec w s2 = .next s3) ∧
      (∃ s1 s2 s3 w, exec (.read Reg.ucsr0a) s = .next s1 ∧ exec (.rxinj 0x55) s1 = .next s2 ∧
        resolve s2 (.clearBack Reg.ucsr0a 5) = .ok w ∧ exec w s2 = .next s3) ∧
      (∃ s1 s2 s3 w, exec (.read Reg.udr0) s = .next s1 ∧ exec (.rxinj 0x55) s1 = .next s2 ∧
        resolve s2 (.setBack Reg.udr0 7) = .ok w ∧ exec w s2 = .next s3) ∧
      ∃ s1 s2 s3 w, exec (.read Reg.udr0) s = .next s1 ∧ exec (.rxinj 0x55) s1 = .next s2 ∧
        resolve s2 (.clearBack Reg.udr0 0) = .ok w ∧ exec w s2 = .next s3 :=
  ⟨by decide, by decide, ⟨_, _, _, _, rfl, rfl, rfl, rfl⟩, ⟨_, _, _, _, rfl, rfl, rfl, rfl⟩,
    ⟨_, _, _, _, rfl, rfl, rfl, rfl⟩, _, _, _, _, rfl, rfl, rfl, rfl⟩

theorem witness_ReadReturnsTheByte : State.reset.Running ∧ 0x8FF < Param.memSize := by decide

/-- The first and the last offset, and a register with no update. -/
theorem witness_PlainWriteStoresAndNotifies :
    State.reset.Running ∧ ∀ a ∈ [0x00, 0x8FF, Reg.ddrb], a < Param.memSize ∧ a ∉ Reg.dispatching := by decide

/-- The last offset, and the two excepted registers with every bit set but those that change themselves. -/
theorem witness_WrittenByteReadsBack :
    ∀ x ∈ [(0x8FF, 0xFF#8), (Reg.eecr, 0xFC#8), (Reg.adcsra, 0xBF#8)],
      x.1 < Param.memSize ∧ (field (exec (writeAt x.1 x.2) State.reset) (·.fault)) = some none ∧
        ¬(x.1 = Reg.eecr ∧ (bitOf x.2 Bit.eere = true ∨ bitOf x.2 Bit.eewe = true)) ∧
        ¬(x.1 = Reg.adcsra ∧ bitOf x.2 Bit.adsc = true) := by decide

theorem witness_WriteDacLoadsTheOutput : State.reset.Running := by decide

theorem witness_DacoutReturnsByteAndVoltage : ({ State.reset with dac := 0xFF#8 } : State).Running := by decide

theorem witness_DacChangesOnlyOnItsWrite :
    ∃ t, exec (.writeDac 0x80) State.reset = .next t ∧ t.dac ≠ State.reset.dac := ⟨_, rfl, by decide⟩

theorem witness_BlockWritesOnlyItsOwnRegisters :
    ∃ t, exec (.writeUdr0 0x41) (start [(0xC1, 0x08#8)]) = .next t ∧ (Instr.writeUdr0 0x41).writeTarget ≠ some 0xC1 ∧
      0xC1 ∉ [Reg.tifr0, Reg.eecr, Reg.eedr, Reg.tcnt0, Reg.adcl, Reg.adch, Reg.adcsra, Reg.ucsr0a, Reg.udr0] :=
  ⟨_, rfl, by decide, by decide⟩

/-- Each of the four changes. -/
theorem witness_EachStateHasItsWriters :
    (∃ t, exec (.writeEecr 0x06) State.reset = .next t ∧ t.eeprom ≠ State.reset.eeprom) ∧
      (∃ t, exec (.step 7) (start [(0x45, 0x02#8)]) = .next t ∧ t.acc ≠ 0) ∧
      (∃ t, exec (.setain 5) State.reset = .next t ∧ t.ain ≠ State.reset.ain) ∧
      ∃ t, exec (.read 0x46) State.reset = .next t ∧ t.answers ≠ State.reset.answers :=
  ⟨⟨_, rfl, by decide⟩, ⟨_, rfl, by decide⟩, ⟨_, rfl, by decide⟩, _, rfl, by decide⟩

/-- The last counter that wraps not and the one that wraps. -/
theorem witness_TickIncrementsAndWraps :
    (start [(0x46, 0xFF#8)]).byteAt Reg.tcnt0 = 255#8 ∧ (start [(0x46, 0xFE#8)]).byteAt Reg.tcnt0 ≠ 255#8 := by decide

/-- Each inert select, also with every undecoded bit set. -/
theorem witness_InertClockSelects :
    ∀ b ∈ [0x00#8, 0xF8#8, 0x06#8, 0xFE#8, 0x07#8, 0xFF#8],
      (start [(0x45, b)]).Running ∧ ((start [(0x45, b)]).byteAt Reg.tccr0b).toNat % 8 ∈ [0, 6, 7] := by decide

/-- Each running select, with the undecoded bits clear and set. -/
theorem witness_RunningStepClosedForm :
    ∀ x ∈ [(1, 0x01#8), (2, 0xFA#8), (3, 0x03#8), (4, 0xFC#8), (5, 0x05#8)],
      (start [(0x45, x.2)]).Running ∧ ((start [(0x45, x.2)]).byteAt Reg.tccr0b).toNat % 8 = x.1 := by decide

/-- A counter one below its wrap under each running select, the undecoded bits clear and set. -/
theorem witness_TickEventCounts :
    ∀ x ∈ [(1, 0x01#8), (2, 0xFA#8), (3, 0x03#8), (4, 0xFC#8), (5, 0x05#8)],
      (start [(0x45, x.2), (0x46, 0xFF#8)]).Running ∧
        ((start [(0x45, x.2), (0x46, 0xFF#8)]).byteAt Reg.tccr0b).toNat % 8 = x.1 := by decide

theorem witness_StepsAddUp : ∃ t, exec (.step 7) (start [(0x45, 0x02#8)]) = .next t := ⟨_, rfl⟩

theorem witness_OverflowAfter256Dividers :
    ∀ x ∈ [(1, 0x01#8), (2, 0x02#8), (3, 0x03#8), (4, 0x04#8), (5, 0xFD#8)],
      let s := start [(0x35, 0xFE#8), (0x45, x.2)]
      s.Running ∧ (s.byteAt Reg.tccr0b).toNat % 8 = x.1 ∧ s.acc = 0 ∧ s.byteAt Reg.tcnt0 = 0#8 ∧
        bitOf (s.byteAt Reg.tifr0) Bit.tov = false := by decide

theorem witness_WriteEecrCommandTable : (eepromStart 0x00).Running := by decide

/-- EERE alone, and with the write command. -/
theorem witness_ReadBranchCopiesTheByte :
    ∀ b ∈ [0x01#8, 0xFD#8, 0x03#8, 0x07#8],
      (eepromStart b).Running ∧ bitOf ((eepromStart b).byteAt Reg.eecr) Bit.eere = true := by decide

/-- The write command with the gate set and clear, each with EERE clear and set. -/
theorem witness_WriteBranchNeedsTheGate :
    (eepromStart 0x06).Running ∧
      [0x06#8, 0x07#8, 0x02#8, 0xFB#8].map (fun b =>
        let v := (eepromStart b).byteAt Reg.eecr
        (v, (eepromStart b).byteAt Reg.eedr, bitOf v Bit.eewe, bitOf v Bit.eemwe, bitOf v Bit.eere)) =
      [(0x06#8, 0x00#8, true, true, false), (0x07#8, 0x00#8, true, true, true), (0x02#8, 0x00#8, true, false, false),
        (0xFB#8, 0x00#8, true, false, true)] := by decide

/-- The gate clear and set, EERE clear and set. -/
theorem witness_BareWriteEnableIsDropped :
    State.reset.Running ∧
      [0xFA#8, 0x03#8, 0xFE#8, 0x07#8].map (fun v => (bitOf v Bit.eewe, bitOf v Bit.eemwe, bitOf v Bit.eere)) =
        [(true, false, false), (true, false, true), (true, true, false), (true, true, true)] := by decide

theorem witness_GateStaysArmed :
    State.reset.Running ∧ ∀ v ∈ [0x04#8, 0xFC#8],
      bitOf v Bit.eemwe = true ∧ bitOf v Bit.eere = false ∧ bitOf v Bit.eewe = false := by decide

/-- Sizes that are no power of two: 0, and one below the model's size. -/
theorem witness_EepromAddressWraps : (∀ k, 0 ≠ 2 ^ k) ∧ ∀ k, 1023 ≠ 2 ^ k := by
  refine ⟨fun k => (Nat.two_pow_pos k).ne, fun k h => ?_⟩
  rcases Nat.lt_or_ge k 10 with hk | hk
  · interval_cases k <;> omega
  · have := Nat.pow_le_pow_right (show 0 < 2 by decide) hk
    omega

/-- EEAR 0x03FF; EEDR 0x5A is written, EEDR is overwritten, a read command brings it back. -/
theorem witness_EepromWriteThenRead :
    ∃ s1 s2 s3, bitOf 0x06#8 Bit.eewe = true ∧ bitOf 0x06#8 Bit.eemwe = true ∧ bitOf 0x06#8 Bit.eere = false ∧
      bitOf 0x07#8 Bit.eere = true ∧
      exec (.writeEecr 0x06) (start [(0x40, 0x5A#8), (0x41, 0xFF#8), (0x42, 0x03#8)]) = .next s1 ∧
      exec (.write Reg.eedr 0x00) s1 = .next s2 ∧ exec (.writeEecr 0x07) s2 = .next s3 :=
  ⟨_, _, _, by decide, by decide, by decide, by decide, rfl, rfl, rfl⟩

/-- The two ends, a pair in order, and the tie of L2 A.3. -/
theorem witness_QuantizerProperties :
    ((0 : Rat) ≤ 0 ∧ (-1 : Rat) ≤ 0) ∧ ((5 : Rat) ≤ 5 ∧ (5 : Rat) ≤ 7) ∧ (0 : Rat) ≤ 5 / 2046 ∧
      min (max (5 / 2 : Rat) 0) 5 * 1023 / 5 = ((511 : Nat) : Rat) + 1 / 2 := by norm_num

/-- Both layouts, ADSC alone and with every other bit. -/
theorem witness_ConversionStoresTheResult :
    (start [(0x7C, 0x20#8)]).Running ∧ (start [(0x7C, 0xDF#8)]).Running ∧
      [0x40#8, 0xFF#8].map (bitOf · Bit.adsc) = [true, true] ∧
      [0x20#8, 0xDF#8].map (fun b => bitOf ((start [(0x7C, b)]).byteAt Reg.admux) Bit.adlar) = [true, false] := by decide

theorem witness_NoStartNoConversion : State.reset.Running ∧ bitOf 0xBF#8 Bit.adsc = false := by decide

/-- ADSC set, in both layouts. -/
theorem witness_AdcCommandsStoreTheResult :
    (start [(0x7A, 0x40#8), (0x7C, 0x20#8)]).Running ∧ (start [(0x7A, 0x40#8), (0x7C, 0xDF#8)]).Running ∧
      [0x20#8, 0xDF#8].map (fun b =>
        let s := start [(0x7A, 0x40#8), (0x7C, b)]
        (bitOf (s.byteAt Reg.adcsra) Bit.adsc, bitOf (s.byteAt Reg.admux) Bit.adlar)) =
      [(true, true), (true, false)] := by decide

/-- 5 V and 0 V, in both layouts. -/
theorem witness_AdcSourceExamples :
    [((5 : Rat), 0x20#8), (5, 0xDF#8), (0, 0x20#8), (0, 0xDF#8)].map (fun x =>
      let s := { start [(0x7C, x.2)] with ain := x.1 }
      (s.fault, s.ain, bitOf (s.byteAt Reg.admux) Bit.adlar)) =
    [(none, 5, true), (none, 5, false), (none, 0, true), (none, 0, false)] := by decide

theorem witness_SetainSetsTheInput : State.reset.Running := by decide

/-- TXEN set alone, and clear with every other bit set. -/
theorem witness_TransmitNeedsTxen :
    (start [(0xC1, 0x08#8)]).Running ∧ (start [(0xC1, 0xF7#8)]).Running ∧
      [0x08#8, 0xF7#8].map (fun b => bitOf ((start [(0xC1, b)]).byteAt Reg.ucsr0b) Bit.txen) = [true, false] := by decide

theorem witness_TransmitCommands :
    (start [(0xC1, 0x08#8)]).Running ∧ bitOf ((start [(0xC1, 0x08#8)]).byteAt Reg.ucsr0b) Bit.txen = true := by decide

/-- RXEN set, TXEN clear and set. -/
theorem witness_ReceiveStoresAndEchoes :
    (start [(0xC1, 0x10#8)]).Running ∧ (start [(0xC1, 0x18#8)]).Running ∧
      [0x10#8, 0x18#8].map (fun b =>
        let s := start [(0xC1, b)]
        (bitOf (s.byteAt Reg.ucsr0b) Bit.rxen, bitOf (s.byteAt Reg.ucsr0b) Bit.txen)) =
      [(true, false), (true, true)] := by decide

/-- RXEN clear, every other bit set. -/
theorem witness_ReceiveDroppedWithoutRxen :
    (start [(0xC1, 0xEF#8)]).Running ∧ bitOf ((start [(0xC1, 0xEF#8)]).byteAt Reg.ucsr0b) Bit.rxen = false := by decide

theorem witness_PortWriteFansOut : (start [(0x28, 0x80#8)]).Running := by decide

theorem witness_TogglingPb5RaisesNineEvents :
    (start [(0x25, 0xDF#8)]).Running ∧ bitOf ((start [(0x25, 0xDF#8)]).byteAt Reg.portb) 5 = false := by decide

theorem witness_PinViewsAreRegisterBits : 0 < 8 ∧ 7 < 8 := by decide

/-- The first offset outside the buffer. -/
theorem witness_OutOfBoundsIsRecorded : State.reset.Running ∧ Param.memSize ≤ 0x900 := by decide

theorem witness_FaultedStateStops : (goOn (.read 0x900) State.reset).fault = some 0x900 := by decide

theorem witness_NothingElseFaults : State.reset.Running := by decide

/-- Each flag set, under an instruction that is no WRITE of its register. -/
theorem witness_FlagsAreClearedOnlyByWrites :
    let s := start [(0x35, 0x01#8), (0x7A, 0x10#8), (0xC0, 0xE0#8)]
    (∃ t, exec (.write 0x60 0) s = .next t) ∧
      ∀ x ∈ [(Reg.tifr0, Bit.tov), (Reg.adcsra, Bit.adif), (Reg.ucsr0a, Bit.rxc), (Reg.ucsr0a, Bit.txc),
        (Reg.ucsr0a, Bit.udre)], (Instr.write 0x60 0).writeTarget ≠ some x.1 ∧ bitOf (s.byteAt x.1) x.2 = true :=
  ⟨⟨_, rfl⟩, by decide⟩

/-- Each flag set by its own cause. -/
theorem witness_FlagsHaveTheirSetters :
    (∀ x ∈ [(Instr.step 1, start [(0x45, 0x01#8), (0x46, 0xFF#8)], Reg.tifr0, Bit.tov),
      (.adcsraStart, start [(0x7A, 0x40#8)], Reg.adcsra, Bit.adif),
      (.rxinj 0x55, start [(0xC1, 0x10#8)], Reg.ucsr0a, Bit.rxc),
      (.writeUdr0 0x41, start [(0xC0, 0x00#8), (0xC1, 0x08#8)], Reg.ucsr0a, Bit.txc),
      (.ucsr0bTxen 0x41, start [(0xC0, 0x00#8), (0xC1, 0x08#8)], Reg.ucsr0a, Bit.udre)],
      x.1.writeTarget ≠ some x.2.2.1 ∧ bitOf (x.2.1.byteAt x.2.2.1) x.2.2.2 = false ∧
        (field (exec x.1 x.2.1) fun t => bitOf (t.byteAt x.2.2.1) x.2.2.2) = some true) := by decide

/-- No buffer, the longest that fits, and the shortest that does not. -/
theorem witness_ConstructionTakesThePreinitBuffer :
    ([] : List Byte).length ≤ Param.eeSize ∧ (List.replicate 1024 0xAB#8).length ≤ Param.eeSize ∧
      Param.eeSize < (List.replicate 1025 0xAB#8).length := by
  rw [List.length_replicate, List.length_replicate]
  decide

/-- A state with a WRITE DAC waiting, which meets the invariant and steps. -/
theorem witness_StepKeepsTheInvariant :
    let s := { State.reset with inbox := [.word 0x2000FE80#32 0] }
    s.Inv ∧ ∃ t, step s = .next t := ⟨⟨rfl, rfl, by decide, rfl, rfl, rfl⟩, _, rfl⟩

/-- A state with a WRITE UDR0 waiting. -/
theorem witness_StepKeepsMemoryMatchingTheTrace :
    let s := { State.reset with inbox := [.word 0x2000C641#32 0] }
    s.MatchesTrace ∧ ∃ t, step s = .next t := ⟨fun _ => rfl, _, rfl⟩

theorem witness_StepOnlyAppendsToTheTrace :
    ∃ t, step { State.reset with inbox := [.word 0x20002520#32 0] } = .next t := ⟨_, rfl⟩

end Sys2Proof.Tests
end

section
/-! SUPPORT. The statements about the block's state (10_state.md), its invariant and its reset. -/

namespace Sys2Proof.Machine

/-! The invariant of the block and the trace: each primitive effect keeps them, so every step does. -/

theorem Effect.keeps_inv {s t : State} (h : Effect s t) (hs : s.Inv) : t.Inv := by
  obtain ⟨hmem, hee, hacc, hdac, htrace, hfault⟩ := hs
  cases h with
  | store a v ha hd =>
    refine ⟨memStore_wf v hmem ha, hee, hacc, ?_, ?_, hfault⟩
    · rw [State.byteAt_record_ne _ _ hd.symm]
      exact hdac
    · simp [htrace, Event.payloadOk, ha]
  | storeDac v =>
    refine ⟨memStore_wf v hmem (by decide), hee, hacc, ?_, ?_, hfault⟩
    · simp
    · simp [htrace, Event.payloadOk, show Reg.dac < Param.memSize by decide]
  | event e _ hp => exact ⟨hmem, hee, hacc, hdac, by simp [htrace, hp], hfault⟩
  | eeprom a v ha => exact ⟨hmem, eeStore_wf v hee ha, hacc, hdac, htrace, hfault⟩
  | outOfBounds a ha => exact ⟨hmem, hee, hacc, hdac, htrace, by simp [faultOk, ha]⟩
  | accumulate n hn => exact ⟨hmem, hee, hn, hdac, htrace, hfault⟩
  | analog v => exact ⟨hmem, hee, hacc, hdac, htrace, hfault⟩
  | answer x => exact ⟨hmem, hee, hacc, hdac, htrace, hfault⟩

theorem Effects.keeps_inv {s t : State} (h : Effects s t) (hs : s.Inv) : t.Inv := by
  induction h with
  | refl => exact hs
  | tail _ hlast ih => exact hlast.keeps_inv ih

/-- The events and the answers of s stand unchanged at the head of those of t. -/
def State.GrowsTo (s t : State) : Prop := s.trace <+: t.trace ∧ s.answers <+: t.answers

theorem Effect.growsTo {s t : State} (h : Effect s t) : s.GrowsTo t := by
  cases h <;> simp [State.GrowsTo]

theorem Effects.growsTo {s t : State} (h : Effects s t) : s.GrowsTo t := by
  induction h with
  | refl => simp [State.GrowsTo]
  | tail _ hlast ih =>
    obtain ⟨htrace, hanswers⟩ := ih
    obtain ⟨htrace', hanswers'⟩ := hlast.growsTo
    exact ⟨htrace.trans htrace', hanswers.trans hanswers'⟩

/-- Settles O54: a step idles, or drops a request, which the invariant does not speak of, and then runs effects that
each keep it. -/
theorem stepKeepsTheInvariant : Obligations.StepKeepsTheInvariant := by
  intro s t hs h
  obtain rfl | ⟨r, rest, _, heff⟩ := step_effects h
  · exact hs
  · have hrest : State.Inv { s with inbox := rest } := hs
    exact heff.keeps_inv hrest

/-- Settles O57: a step idles, or drops a request and then runs effects that each only append. -/
theorem stepOnlyAppendsToTheTrace : Obligations.StepOnlyAppendsToTheTrace := by
  intro s t h
  obtain rfl | ⟨r, rest, _, heff⟩ := step_effects h
  · exact ⟨[], [], by simp⟩
  · obtain ⟨⟨es, htrace⟩, xs, hanswers⟩ := heff.growsTo
    exact ⟨es, xs, htrace.symm, hanswers.symm⟩

/-! Reset. -/

/-- Settles O51. -/
theorem resetLeavesTheStatedValues : Obligations.ResetLeavesTheStatedValues := by
  have other : ∀ a, a ≠ 0xC0 → State.reset.byteAt a = 0#8 := fun a ha => if_neg ha
  exact ⟨rfl, other, fun _ => rfl, rfl, rfl, rfl, rfl, rfl, rfl, rfl⟩

/-- Settles O53. -/
theorem resetMeetsTheInvariant : Obligations.ResetMeetsTheInvariant :=
  ⟨rfl, rfl, Nat.zero_le 1023, rfl, rfl, rfl⟩

/-- Settles O55: an unlisted offset reads as its reset byte. -/
theorem resetMatchesItsTrace : Obligations.ResetMatchesItsTrace := fun _ => rfl

/-! A state with the fault mark set. -/

/-- Every instruction's meaning is guarded by the fault mark. -/
theorem exec_faulted {s : State} {a : Nat} (h : s.fault = some a) (i : Instr) :
    exec i s = .fault (.outOfBounds a) := by
  cases i <;> exact ifRunning_fault h

/-- Settles O47: the guard of every meaning and of the step reads the mark first. -/
theorem faultedStateStops : Obligations.FaultedStateStops := by
  intro s a h
  exact ⟨by simp [step, h], exec_faulted h⟩

/-! A WRITE of an offset that selects no update. -/

/-- Settles O11: such a WRITE is one store, and a READ after it finds the byte stored. -/
theorem plainWriteStoresAndNotifies : Obligations.PlainWriteStoresAndNotifies := by
  intro s a d hs ha hplain
  have hwrite : exec (.write a d) s = .next (s.record a d) :=
    (ifRunning_next hs).trans (congrArg _ (memWriteAt_plain _ d s ha hplain))
  have hread : readByte a (s.record a d) = (s.record a d).answer (.read a d) := by
    rw [readByte, if_neg (by omega), State.byteAt_record_same]
  refine ⟨s.record a d, hwrite, fun b => ?_, rfl, ⟨rfl, rfl, rfl, rfl, rfl, rfl, rfl⟩,
    (ifRunning_next hs).trans (congrArg _ hread)⟩
  by_cases h : b = a
  · simp [h]
  · simp [State.byteAt_record_ne _ _ h, Ne.symm h]

end Sys2Proof.Machine
end

section
/-! SUPPORT. The footprint of an instruction: the effects it may have beside the store it names, and what follows for the
fields and the flags of the state (10_state.md R39 to R45). -/

namespace Sys2Proof

/-- The instruction may run a conversion to its end (43_adc.md R153). -/
abbrev Instr.Converts (i : Instr) : Prop := i.writeTarget = some Reg.adcsra ∨ i = .adcsraStart

/-- The instruction may accept a received byte (44_uart.md R172). -/
abbrev Instr.Receives (i : Instr) : Prop := ∃ b, i = .rxinj b ∨ i = .ucsr0bRxen b

/-- The instruction may transmit a byte, the echo of a receive included (44_uart.md R170, R173). -/
abbrev Instr.Transmits (i : Instr) : Prop :=
  i.writeTarget = some Reg.udr0 ∨ ∃ b, i = .rxinj b ∨ i = .ucsr0bRxen b ∨ i = .ucsr0bTxen b

/-- The instruction may store in the EEPROM image (42_eeprom.md R133). -/
abbrev Instr.StoresInEeprom (i : Instr) : Prop :=
  i.writeTarget = some Reg.eecr ∨ i = .eecrRead ∨ i = .eecrWrite

/-- The instruction may return an answer (40_bus_dispatch.md R91, R96). -/
abbrev Instr.Returns (i : Instr) : Prop := (∃ a, i = .read a) ∨ i = .dacout

theorem Instr.Receives.transmits {i : Instr} (h : i.Receives) : i.Transmits := by
  obtain ⟨b, rfl | rfl⟩ := h
  · exact .inr ⟨b, .inl rfl⟩
  · exact .inr ⟨b, .inr (.inl rfl)⟩

end Sys2Proof

namespace Sys2Proof.Machine

/-- The stores of the block's own that instruction i may run, by offset, old byte and new byte (40_bus_dispatch.md R98).
A store in one of the three registers that hold flags is tied to its cause. -/
inductive OwnStore (i : Instr) : Nat → Byte → Byte → Prop where
  /-- A register that holds no flag takes any byte. -/
  | data {a : Nat} (old new : Byte)
      (ha : a ∈ [Reg.eecr, Reg.eedr, Reg.tcnt0, Reg.adcl, Reg.adch, Reg.udr0]) : OwnStore i a old new
  /-- The timer wraps (41_timer.md R113). -/
  | overflow (old : Byte) (hi : i.stepsTimer = true) : OwnStore i Reg.tifr0 old (withBit old Bit.tov)
  /-- A conversion completes (43_adc.md R153). -/
  | converted (old : Byte) (hi : i.Converts) : OwnStore i Reg.adcsra old (adcDone old)
  /-- A byte was transmitted (44_uart.md R171). -/
  | transmitted (old : Byte) (hi : i.Transmits) : OwnStore i Reg.ucsr0a old (txFlags old)
  /-- A byte was received (44_uart.md R172). -/
  | received (old : Byte) (hi : i.Receives) : OwnStore i Reg.ucsr0a old (withBit old Bit.rxc)

/-- One primitive effect that instruction i may have: `Effect` with each effect tied to the instructions that have it. -/
inductive EffectOf (i : Instr) : State → State → Prop where
  /-- The store a WRITE names. -/
  | named (s : State) {a : Nat} (v : Byte) (hi : i.writeTarget = some a) : EffectOf i s (s.record a v)
  /-- A store of the block's own. -/
  | own (s : State) {a : Nat} {v : Byte} (h : OwnStore i a (s.byteAt a) v) : EffectOf i s (s.record a v)
  | loadDac (s : State) (v : Byte) (hi : i.writeTarget = some Reg.dac) : EffectOf i s (dacLoad v s)
  | events (s : State) (es : List Event) : EffectOf i s (s.emitAll es)
  | eeprom (s : State) (a : Nat) (v : Byte) (hi : i.StoresInEeprom) : EffectOf i s (s.eeStore a v)
  | outOfBounds (s : State) (a : Nat) : EffectOf i s (s.raiseOutOfBounds a)
  | accumulate (s : State) (n : Nat) (hi : i.stepsTimer = true) : EffectOf i s { s with acc := n }
  | analog (s : State) (v : Rat) (hi : i = .setain v) : EffectOf i s { s with ain := v }
  | answer (s : State) (x : Answer) (hi : i.Returns) : EffectOf i s (s.answer x)

/-- A sequence of effects that instruction i may have. -/
abbrev EffectsOf (i : Instr) : State → State → Prop := Relation.ReflTransGen (EffectOf i)

section Footprint

variable {i : Instr}

theorem EffectOf.once {s t : State} (h : EffectOf i s t) : EffectsOf i s t := .single h

theorem EffectsOf.guarded {s t : State} {c : Bool} (h : EffectsOf i s t) : EffectsOf i s (if c then t else s) := by
  cases c
  · exact .refl
  · exact h

/-! The bits of the bytes the block stores. -/

theorem bitOf_withoutBit_same (v : Byte) {j : Nat} (hj : j < 8) : bitOf (withoutBit v j) j = false := by
  simp [bitOf_withoutBit v j hj]

theorem bitOf_adcDone (v : Byte) {j : Nat} (hj : j < 8) :
    bitOf (adcDone v) j = ((bitOf v j || decide (Bit.adif = j)) && !decide (Bit.adsc = j)) := by
  rw [adcDone, bitOf_withoutBit _ _ hj, bitOf_withBit _ _ hj]

theorem bitOf_txFlags (v : Byte) {j : Nat} (hj : j < 8) :
    bitOf (txFlags v) j = (bitOf v j || decide (Bit.txc = j) || decide (Bit.udre = j)) := by
  rw [txFlags, bitOf_or, bitOf_or, bitOf_mask hj, bitOf_mask hj]

/-! The updates. -/

theorem data_effectsOf (s : State) {a : Nat} (v : Byte)
    (ha : a ∈ [Reg.eecr, Reg.eedr, Reg.tcnt0, Reg.adcl, Reg.adch, Reg.udr0]) : EffectsOf i s (s.record a v) :=
  (EffectOf.own s (.data _ v ha)).once

theorem portFanout_effectsOf (p : Port) (old new : Byte) (s : State) : EffectsOf i s (portFanout p old new s) := by
  have port : EffectsOf i s (s.emit (.portChange p old new)) := (EffectOf.events s [_]).once
  unfold portFanout
  split
  · exact port.tail (.events _ _)
  · exact port

theorem adcStoreLeft_effectsOf (k : Nat) (r : BitVec 10) (s : State) :
    EffectsOf i s (adcStoreLeft (memWriteAt k) r s) := by
  rw [adcStoreLeft_memWriteAt]
  exact (data_effectsOf s _ (by decide)).trans (data_effectsOf _ _ (by decide))

theorem adcStoreRight_effectsOf (k : Nat) (r : BitVec 10) (s : State) :
    EffectsOf i s (adcStoreRight (memWriteAt k) r s) := by
  rw [adcStoreRight_memWriteAt]
  exact (data_effectsOf s _ (by decide)).trans (data_effectsOf _ _ (by decide))

theorem adcConvert_effectsOf (hi : i.Converts) (k : Nat) (s : State) :
    EffectsOf i s (adcConvert (memWriteAt k) s) := by
  have complete : ∀ u : State, EffectsOf i u (adcComplete (memWriteAt k) u) := fun u => by
    rw [adcComplete_memWriteAt]
    exact (EffectOf.own u (.converted _ hi)).once
  simp only [adcConvert]
  split
  · exact (adcStoreLeft_effectsOf k _ s).trans (complete _)
  · exact (adcStoreRight_effectsOf k _ s).trans (complete _)

theorem uartSend_effectsOf (hi : i.Transmits) (k : Nat) (b : Byte) (s : State) :
    EffectsOf i s (uartSend (memWriteAt k) b s) := by
  rw [uartSend_memWriteAt]
  exact (EffectOf.events s [.uartTx b]).once.tail (.own _ (.transmitted _ hi))

/-- A write of EECR, by the block or by a WRITE, stores in E only where EEWE is set in the byte written. -/
theorem memWriteAt_eecr_effectsOf (k : Nat) (v : Byte) (s : State)
    (hi : bitOf v Bit.eewe = true → i.StoresInEeprom) : EffectsOf i s (memWriteAt (k + 2) Reg.eecr v s) := by
  have eecr : ∀ (u : State) (w : Byte), EffectsOf i u (u.record Reg.eecr w) :=
    fun u w => data_effectsOf u w (by decide)
  have noRead : ∀ (k : Nat) (v : Byte) (s : State), bitOf v Bit.eere = false →
      (bitOf v Bit.eewe = true → i.StoresInEeprom) → EffectsOf i s (memWriteAt (k + 1) Reg.eecr v s) := by
    intro k v s hr hi
    cases hw : bitOf v Bit.eewe with
    | false =>
      rw [memWriteAt_eecr_idle _ _ _ hr hw]
      exact eecr s v
    | true =>
      cases hg : bitOf v Bit.eemwe with
      | false =>
        rw [memWriteAt_eecr_dropped _ _ _ hr hw hg]
        exact (eecr s v).trans (eecr _ _)
      | true =>
        rw [memWriteAt_eecr_write _ _ _ hr hw hg]
        exact ((eecr s v).tail (.eeprom _ _ _ (hi hw))).trans (eecr _ _)
  cases hr : bitOf v Bit.eere with
  | false => exact noRead (k + 1) v s hr hi
  | true =>
    rw [memWriteAt_eecr_read _ _ _ hr]
    refine ((eecr s v).trans (data_effectsOf _ _ (by decide))).trans (noRead k _ _ ?_ fun hw => hi ?_)
    · exact bitOf_withoutBit_same v (by decide)
    · rw [bitOf_withoutBit _ _ (by decide), Bool.and_eq_true] at hw
      exact hw.1

theorem memWrite_eecr_effectsOf (v : Byte) (s : State) (hi : bitOf v Bit.eewe = true → i.StoresInEeprom) :
    EffectsOf i s (memWrite Reg.eecr v s) :=
  memWriteAt_eecr_effectsOf 1 v s hi

theorem eepromRead_effectsOf (hi : i.StoresInEeprom) (addr : Nat) (s : State) :
    EffectsOf i s (eepromRead memWrite addr s) := by
  have eedr : memWrite Reg.eedr (s.eeByteAt addr) s = s.record Reg.eedr (s.eeByteAt addr) :=
    memWriteAt_plain _ _ s (by decide) (by decide)
  rw [eepromRead, eedr]
  exact (data_effectsOf s _ (by decide)).trans (memWrite_eecr_effectsOf _ _ fun _ => hi)

theorem eepromWrite_effectsOf (hi : i.StoresInEeprom) (addr : Nat) (s : State) :
    EffectsOf i s (eepromWrite memWrite addr s) :=
  (EffectOf.eeprom s addr _ hi).once.trans (memWrite_eecr_effectsOf _ _ fun _ => hi)

/-- The dropped write clears EEWE, so no store in E follows, whatever the other bits of EECR are. -/
theorem eepromWriteDropped_effectsOf (s : State) : EffectsOf i s (eepromWriteDropped memWrite s) :=
  memWrite_eecr_effectsOf _ s fun hw => by
    rw [bitOf_withoutBit_same _ (by decide)] at hw
    cases hw

/-- A write of UDR0 is its store and, with TXEN set, a transmit. -/
theorem memWrite_udr0_effectsOf (hi : i.Transmits) {v : Byte} {s : State}
    (hstore : EffectOf i s (s.record Reg.udr0 v)) : EffectsOf i s (memWrite Reg.udr0 v s) := by
  have h : memWrite Reg.udr0 v s = uartTransmit (memWriteAt 2) v (s.record Reg.udr0 v) := memWriteAt_udr0 2 v s
  rw [h]
  exact hstore.once.trans (uartSend_effectsOf hi 2 v _).guarded

theorem uartAccept_effectsOf (hi : i.Receives) (b : Byte) (s : State) :
    EffectsOf i s (uartAccept memWrite b s) := by
  have setRxc : ∀ u : State, EffectsOf i u (setb memWrite Reg.ucsr0a Bit.rxc u) := fun u => by
    rw [setb, memWrite, memWriteAt_plain _ _ _ (by decide) (by decide)]
    exact (EffectOf.own u (.received _ hi)).once
  exact (memWrite_udr0_effectsOf hi.transmits (.own s (.data _ b (by decide)))).trans (setRxc _)

theorem ticks_effectsOf (hi : i.stepsTimer = true) (n : Nat) (s : State) : EffectsOf i s (ticks n s) := by
  induction n generalizing s with
  | zero => exact .refl
  | succ n ih =>
    have one : EffectsOf i s (tick s) := by
      rw [tick_record]
      split
      · have flag : (s.record Reg.tcnt0 0#8).byteAt Reg.tifr0 = s.byteAt Reg.tifr0 :=
          State.byteAt_record_ne s _ (by decide)
        rw [← flag]
        exact (data_effectsOf s _ (by decide)).tail (.own _ (.overflow _ hi))
      · exact data_effectsOf s _ (by decide)
    exact one.trans (ih _)

theorem runTimer_effectsOf (hi : i.stepsTimer = true) (d n : Nat) (s : State) : EffectsOf i s (runTimer d n s) := by
  rw [runTimer_eq]
  exact (EffectOf.accumulate s _ hi).once.trans (ticks_effectsOf hi _ _)

theorem timerStep_effectsOf (hi : i.stepsTimer = true) (n : Nat) (s : State) : EffectsOf i s (timerStep n s) := by
  unfold timerStep
  split
  · exact .refl
  · exact runTimer_effectsOf hi _ n s

theorem clockBranch_effectsOf (hi : i.stepsTimer = true) (cs n : Nat) (s : State) :
    EffectsOf i s (clockBranch cs n s) := by
  unfold clockBranch
  split
  · split
    · exact .refl
    · exact runTimer_effectsOf hi _ n s
  · exact .refl

/-! The instructions. -/

theorem dispatching_cases {a : Nat} (h : a ∈ Reg.dispatching) :
    (∃ p, a = pinOf p ∨ a = portOf p) ∨ a = Reg.adcsra ∨ a = Reg.eecr ∨ a = Reg.dac ∨ a = Reg.udr0 := by
  simp only [Reg.dispatching, List.mem_cons, List.not_mem_nil, or_false] at h
  obtain h | h | h | h | h | h | h := h
  · exact .inl ⟨.B, .inl h⟩
  · exact .inl ⟨.B, .inr h⟩
  · exact .inl ⟨.C, .inl h⟩
  · exact .inl ⟨.C, .inr h⟩
  · exact .inl ⟨.D, .inl h⟩
  · exact .inl ⟨.D, .inr h⟩
  · exact .inr h

/-- A WRITE is the store it names and the update its offset selects (40_bus_dispatch.md R92, R94). -/
theorem memWrite_effectsOf {a : Nat} (hi : i.writeTarget = some a) (v : Byte) (s : State) :
    EffectsOf i s (memWrite a v s) := by
  have named : EffectsOf i s (s.record a v) := (EffectOf.named s v hi).once
  unfold memWrite maxNesting
  by_cases ha : Param.memSize ≤ a
  · rw [memWriteAt_outOfBounds _ _ _ ha]
    exact (EffectOf.outOfBounds s a).once
  by_cases hd : a ∈ Reg.dispatching
  · obtain ⟨p, hp⟩ | rfl | rfl | rfl | rfl := dispatching_cases hd
    · rw [memWriteAt_port 2 p v s hp]
      exact named.trans (portFanout_effectsOf p _ v _)
    · rw [memWriteAt_adcsra]
      exact named.trans (adcConvert_effectsOf (.inl hi) 2 _).guarded
    · exact memWrite_eecr_effectsOf v s fun _ => .inl hi
    · rw [memWriteAt_dac]
      exact named.tail (.loadDac _ v hi)
    · exact memWrite_udr0_effectsOf (.inl hi) (.named s v hi)
  · rw [memWriteAt_plain _ _ _ (by omega) hd]
    exact named

theorem readByte_effectsOf (hi : i.Returns) (a : Nat) (s : State) : EffectsOf i s (readByte a s) := by
  unfold readByte
  split
  · exact (EffectOf.outOfBounds s a).once
  · exact (EffectOf.answer s _ hi).once

/-- What an instruction does is a sequence of effects that it may have. -/
theorem exec_effectsOf {s t : State} (h : exec i s = .next t) : EffectsOf i s t := by
  cases i <;> obtain ⟨-, rfl⟩ := ifRunning_eq_next h
  case read a => exact readByte_effectsOf (.inl ⟨a, rfl⟩) a s
  case step n => exact timerStep_effectsOf rfl n s
  case rxinj b => exact (uartAccept_effectsOf ⟨b, .inl rfl⟩ b s).guarded
  case setain v => exact (EffectOf.analog s v rfl).once
  case dacout => exact (EffectOf.answer s _ (.inr rfl)).once
  case eecrRead => exact (eepromRead_effectsOf (.inr (.inl rfl)) _ s).guarded
  case eecrWrite => exact (eepromWrite_effectsOf (.inr (.inr rfl)) _ s).guarded
  case eecrWriteDropped => exact (eepromWriteDropped_effectsOf s).guarded
  case adcsraStart => exact (adcConvert_effectsOf (.inr rfl) _ s).guarded
  case admuxLeft r => exact (adcStoreLeft_effectsOf _ r s).guarded
  case admuxRight r => exact (adcStoreRight_effectsOf _ r s).guarded
  case ucsr0bTxen b => exact (uartSend_effectsOf (.inr ⟨b, .inr (.inr rfl)⟩) _ b s).guarded
  case ucsr0bRxen b => exact (uartAccept_effectsOf ⟨b, .inr rfl⟩ b s).guarded
  case tccr0bCs0 n | tccr0bCs1 n | tccr0bCs2 n | tccr0bCs3 n | tccr0bCs4 n | tccr0bCs5 n | tccr0bCs6 n | tccr0bCs7 n =>
    exact clockBranch_effectsOf rfl _ n s
  case eecrGateOnly | adcsraNostart | ucsr0bTxoff | ucsr0bRxoff => exact .refl
  case writePinb d | writePortb d | writePinc d | writePortc d | writePind d | writePortd d | writeAdcsra d
    | writeEecr d | writeDac d | writeUdr0 d | write a d => exact memWrite_effectsOf rfl d s

/-! Which field an instruction's effects may change. -/

/-- A part of the state that no effect of i changes unless P holds is unchanged or P holds. -/
theorem EffectsOf.unchanged_or {α : Type} (f : State → α) {P : Prop}
    (hf : ∀ u w, EffectOf i u w → f w = f u ∨ P) {s t : State} (h : EffectsOf i s t) : f t = f s ∨ P := by
  induction h with
  | refl => exact .inl rfl
  | @tail u w _ hlast ih =>
    obtain hu | hP := ih
    · exact (hf u w hlast).imp_left (·.trans hu)
    · exact .inr hP

theorem exec_dac {s t : State} (h : exec i s = .next t) : t.dac = s.dac ∨ i.writeTarget = some Reg.dac :=
  (exec_effectsOf h).unchanged_or State.dac fun u w he => by
    cases he with
    | loadDac v hi => exact .inr hi
    | _ => exact .inl rfl

theorem exec_eeprom {s t : State} (h : exec i s = .next t) : t.eeprom = s.eeprom ∨ i.StoresInEeprom :=
  (exec_effectsOf h).unchanged_or State.eeprom fun u w he => by
    cases he with
    | eeprom a v hi => exact .inr hi
    | _ => exact .inl rfl

theorem exec_acc {s t : State} (h : exec i s = .next t) : t.acc = s.acc ∨ i.stepsTimer = true :=
  (exec_effectsOf h).unchanged_or State.acc fun u w he => by
    cases he with
    | accumulate n hi => exact .inr hi
    | _ => exact .inl rfl

theorem exec_answers {s t : State} (h : exec i s = .next t) : t.answers = s.answers ∨ i.Returns :=
  (exec_effectsOf h).unchanged_or State.answers fun u w he => by
    cases he with
    | answer x hi => exact .inr hi
    | _ => exact .inl rfl

theorem exec_inbox {s t : State} (h : exec i s = .next t) : t.inbox = s.inbox := by
  have keeps : ∀ u w, EffectOf i u w → w.inbox = u.inbox ∨ False := fun u w he => by
    cases he <;> exact .inl rfl
  exact ((exec_effectsOf h).unchanged_or State.inbox keeps).resolve_right id

/-- A SETAIN is one effect, so the input it leaves is its operand. -/
theorem exec_ain {s t : State} (h : exec i s = .next t) : t.ain = s.ain ∨ i = .setain t.ain := by
  obtain hkept | ⟨v, rfl⟩ := (exec_effectsOf h).unchanged_or (P := ∃ v, i = .setain v) State.ain fun u w he => by
    cases he with
    | analog v hi => exact .inr ⟨v, hi⟩
    | _ => exact .inl rfl
  · exact .inl hkept
  · obtain ⟨-, rfl⟩ := ifRunning_eq_next h
    exact .inr rfl

/-! Which byte of M an instruction's effects may change. -/

/-- One effect leaves a byte the instruction does not name, or it is a store of the block's own there. -/
theorem EffectOf.byteAt_cases {a : Nat} {s t : State} (h : EffectOf i s t) (hw : i.writeTarget ≠ some a) :
    t.byteAt a = s.byteAt a ∨ OwnStore i a (s.byteAt a) (t.byteAt a) := by
  cases h with
  | @named b v hi =>
    have hne : a ≠ b := fun e => hw (e ▸ hi)
    exact .inl (State.byteAt_record_ne s v hne)
  | @own b v hstore =>
    by_cases hab : a = b
    · subst hab
      rw [State.byteAt_record_same]
      exact .inr hstore
    · exact .inl (State.byteAt_record_ne s v hab)
  | _ => exact .inl rfl

/-- Where a bit of a register the instruction does not name has changed from b, a store of the block's own changed it. -/
theorem EffectsOf.bit_changed {a f : Nat} {b : Bool} {s t : State} (h : EffectsOf i s t)
    (hw : i.writeTarget ≠ some a) (hs : bitOf (s.byteAt a) f = b) (ht : bitOf (t.byteAt a) f = !b) :
    ∃ old new, OwnStore i a old new ∧ bitOf old f = b ∧ bitOf new f = !b := by
  induction h with
  | refl =>
    rw [hs] at ht
    exact absurd ht (by simp)
  | @tail u w _ hlast ih =>
    by_cases hu : bitOf (u.byteAt a) f = b
    · obtain hkept | hstore := hlast.byteAt_cases hw
      · rw [hkept, hu] at ht
        exact absurd ht (by simp)
      · exact ⟨_, _, hstore, hu, ht⟩
    · exact ih (Bool.eq_not.mpr hu)

/-! The block's own stores in the three registers that hold flags. -/

theorem ownStore_tifr0 {old new : Byte} (h : OwnStore i Reg.tifr0 old new) :
    new = withBit old Bit.tov ∧ i.stepsTimer = true := by
  generalize ha : Reg.tifr0 = a at h
  cases h with
  | data _ _ hmem => exact absurd (ha ▸ hmem) (by decide)
  | overflow _ hi => exact ⟨rfl, hi⟩
  | converted | transmitted | received => exact absurd ha (by decide)

theorem ownStore_adcsra {old new : Byte} (h : OwnStore i Reg.adcsra old new) : new = adcDone old ∧ i.Converts := by
  generalize ha : Reg.adcsra = a at h
  cases h with
  | data _ _ hmem => exact absurd (ha ▸ hmem) (by decide)
  | converted _ hi => exact ⟨rfl, hi⟩
  | overflow | transmitted | received => exact absurd ha (by decide)

theorem ownStore_ucsr0a {old new : Byte} (h : OwnStore i Reg.ucsr0a old new) :
    (new = txFlags old ∧ i.Transmits) ∨ (new = withBit old Bit.rxc ∧ i.Receives) := by
  generalize ha : Reg.ucsr0a = a at h
  cases h with
  | data _ _ hmem => exact absurd (ha ▸ hmem) (by decide)
  | transmitted _ hi => exact .inl ⟨rfl, hi⟩
  | received _ hi => exact .inr ⟨rfl, hi⟩
  | overflow | converted => exact absurd ha (by decide)

theorem ownStore_ucsr0a_keeps_bits {old new : Byte} {f : Nat} (hf : f < 8) (h : OwnStore i Reg.ucsr0a old new)
    (hold : bitOf old f = true) : bitOf new f = true := by
  obtain ⟨rfl, _⟩ | ⟨rfl, _⟩ := ownStore_ucsr0a h
  · simp [bitOf_txFlags old hf, hold]
  · simp [bitOf_withBit old _ hf, hold]

/-- No store of the block's own clears a flag (60_exceptions.md R213). -/
theorem ownStore_keeps_flags {old new : Byte} {x : Nat × Nat}
    (hx : x ∈ [(Reg.tifr0, Bit.tov), (Reg.adcsra, Bit.adif), (Reg.ucsr0a, Bit.rxc), (Reg.ucsr0a, Bit.txc),
      (Reg.ucsr0a, Bit.udre)])
    (h : OwnStore i x.1 old new) (hold : bitOf old x.2 = true) : bitOf new x.2 = true := by
  simp only [List.mem_cons, List.not_mem_nil, or_false] at hx
  obtain rfl | rfl | rfl | rfl | rfl := hx
  · obtain ⟨rfl, _⟩ := ownStore_tifr0 h
    rw [bitOf_withBit _ _ (by decide), hold, Bool.true_or]
  · obtain ⟨rfl, _⟩ := ownStore_adcsra h
    rw [bitOf_adcDone _ (by decide), hold]
    rfl
  · exact ownStore_ucsr0a_keeps_bits (by decide) h hold
  · exact ownStore_ucsr0a_keeps_bits (by decide) h hold
  · exact ownStore_ucsr0a_keeps_bits (by decide) h hold

/-- RXC is set by a receive alone: a transmit leaves it. -/
theorem ownStore_sets_rxc {old new : Byte} (h : OwnStore i Reg.ucsr0a old new) (hold : bitOf old Bit.rxc = false)
    (hnew : bitOf new Bit.rxc = true) : i.Receives := by
  obtain ⟨rfl, _⟩ | ⟨_, hi⟩ := ownStore_ucsr0a h
  · rw [bitOf_txFlags _ (by decide), hold] at hnew
    exact absurd hnew (by decide)
  · exact hi

/-- TXC and UDRE are set by a transmit alone: the flag write of a receive leaves them. -/
theorem ownStore_sets_txFlag {old new : Byte} {f : Nat} (hf : f ∈ [Bit.txc, Bit.udre])
    (h : OwnStore i Reg.ucsr0a old new) (hold : bitOf old f = false) (hnew : bitOf new f = true) : i.Transmits := by
  have distinct : ∀ g ∈ [Bit.txc, Bit.udre], g < 8 ∧ Bit.rxc ≠ g := by decide
  obtain ⟨hlt, hne⟩ := distinct f hf
  obtain ⟨_, hi⟩ | ⟨rfl, _⟩ := ownStore_ucsr0a h
  · exact hi
  · simp [bitOf_withBit _ _ hlt, hold, hne] at hnew

end Footprint

/-! The statements. -/

theorem dacVoltage_eq (b : Byte) : dacVoltage b = (b.toNat : Rat) / 255 * 5 := by
  rw [dacVoltage, Rat.mkRat_eq_div]
  push_cast
  ring

/-- Settles O16: no effect but a WRITE DAC's loads the output; the voltage is the model's exact rational. -/
theorem dacChangesOnlyOnItsWrite : Obligations.DacChangesOnlyOnItsWrite :=
  ⟨fun _ _ _ h hne => (exec_dac h).resolve_left hne, dacVoltage_eq⟩

/-- Settles O19, field by field from the footprint of the instruction. -/
theorem eachStateHasItsWriters : Obligations.EachStateHasItsWriters := fun _ _ _ h =>
  ⟨(exec_eeprom h).resolve_left, (exec_acc h).resolve_left, (exec_ain h).resolve_left, (exec_answers h).resolve_left,
    exec_inbox h⟩

/-- Settles O49: were a flag cleared, a store of the block's own would have cleared it, and none does. -/
theorem flagsAreClearedOnlyByWrites : Obligations.FlagsAreClearedOnlyByWrites := by
  intro i s t h x hx hw hs
  by_contra hcleared
  obtain ⟨old, new, hstore, hold, hnew⟩ :=
    (exec_effectsOf h).bit_changed hw hs (Bool.eq_false_iff.mpr hcleared)
  rw [ownStore_keeps_flags hx hstore hold] at hnew
  cases hnew

/-- Settles O50: a flag that came to be set was set by a store of the block's own, and each such store has its cause. -/
theorem flagsHaveTheirSetters : Obligations.FlagsHaveTheirSetters := by
  intro i s t h
  have heff := exec_effectsOf h
  refine ⟨fun hw hs ht => ?_, fun hw hs ht => ?_, fun hw hs ht => ?_, fun f hf hw hs ht => ?_⟩ <;>
    obtain ⟨old, new, hstore, hold, hnew⟩ := heff.bit_changed hw hs ht
  · exact (ownStore_tifr0 hstore).2
  · exact (ownStore_adcsra hstore).2.resolve_left hw
  · exact ownStore_sets_rxc hstore hold hnew
  · exact ownStore_sets_txFlag hf hstore hold hnew

end Sys2Proof.Machine
end

section
/-! SUPPORT. The statements about the address space (20_memory.md): its bytes against the trace, the byte a WRITE
leaves, and the request a step runs. -/

namespace Sys2Proof.Machine

/-! The trace says what every byte of M is. -/

theorem lastStored_append (a : Nat) (d : Byte) (xs ys : List Event) :
    lastStored a d (xs ++ ys) = lastStored a (lastStored a d xs) ys := by
  induction xs generalizing d with
  | nil => rfl
  | cons e xs ih => cases e <;> exact ih _

theorem lastStored_snoc_memChange (a b : Nat) (d old new : Byte) (es : List Event) :
    lastStored a d (es ++ [.memChange b old new]) = if b = a then new else lastStored a d es :=
  lastStored_append a d es _

theorem lastStored_snoc_hostVisible (a : Nat) (d : Byte) (es : List Event) {e : Event} (he : e.hostVisible = true) :
    lastStored a d (es ++ [e]) = lastStored a d es := by
  rw [lastStored_append]
  cases e with
  | memChange => cases he
  | portChange | pinChange | uartTx => rfl

/-- A store and its notification agree at the offset stored and leave every other (40_bus_dispatch.md R92, R93). -/
theorem record_matchesTrace {s : State} (hs : s.MatchesTrace) (a : Nat) (v : Byte) : (s.record a v).MatchesTrace := by
  intro b
  rw [State.byteAt_record, State.record_trace, lastStored_snoc_memChange, hs b]
  simp only [eq_comm]

/-- Only a store changes M, and only a store notifies it. -/
theorem Effect.keeps_matchesTrace {s t : State} (h : Effect s t) (hs : s.MatchesTrace) : t.MatchesTrace := by
  cases h with
  | store a v => exact record_matchesTrace hs a v
  | storeDac v => exact record_matchesTrace hs Reg.dac v
  | event e hv => exact fun b => (hs b).trans (lastStored_snoc_hostVisible b _ s.trace hv).symm
  | eeprom | outOfBounds | accumulate | analog | answer => exact hs

theorem Effects.keeps_matchesTrace {s t : State} (h : Effects s t) (hs : s.MatchesTrace) : t.MatchesTrace := by
  induction h with
  | refl => exact hs
  | tail _ hlast ih => exact hlast.keeps_matchesTrace ih

/-- Settles O56: a step idles, or drops a request, which the trace does not speak of, and then runs effects that each
keep M and the trace in agreement. -/
theorem stepKeepsMemoryMatchingTheTrace : Obligations.StepKeepsMemoryMatchingTheTrace := by
  intro s t hs h
  obtain rfl | ⟨r, rest, _, heff⟩ := step_effects h
  · exact hs
  · have hrest : State.MatchesTrace { s with inbox := rest } := hs
    exact heff.keeps_matchesTrace hrest

/-! The byte a WRITE leaves at its offset. -/

/-- The row of any offset runs the one MemWrite (30_encoding.md R85; 40_bus_dispatch.md R92). -/
theorem exec_writeAt (a : Nat) (d : Byte) (s : State) : exec (writeAt a d) s = ifRunning s (memWrite a d s) := by
  unfold writeAt
  split_ifs <;> subst_vars <;> rfl

theorem portFanout_byteAt (p : Port) (old new : Byte) (s : State) (c : Nat) :
    (portFanout p old new s).byteAt c = s.byteAt c := by
  unfold portFanout
  split <;> rfl

theorem uartTransmit_byteAt_ne (k : Nat) (v : Byte) (s : State) {c : Nat} (hc : c ≠ Reg.ucsr0a) :
    (uartTransmit (memWriteAt k) v s).byteAt c = s.byteAt c := by
  unfold uartTransmit
  split
  · rw [uartSend_memWriteAt, State.byteAt_record_ne _ _ hc, State.emit_byteAt]
  · rfl

/-- Of the updates a WRITE selects only those of EECR and ADCSRA store in the register written, and they do so on a
command alone. -/
theorem memWrite_byteAt_same {a : Nat} {d : Byte} (s : State) (ha : a < Param.memSize)
    (heecr : a = Reg.eecr → bitOf d Bit.eere = false ∧ bitOf d Bit.eewe = false)
    (hadc : a = Reg.adcsra → bitOf d Bit.adsc = false) : (memWrite a d s).byteAt a = d := by
  have stored : (s.record a d).byteAt a = d := State.byteAt_record_same s a d
  unfold memWrite maxNesting
  by_cases hd : a ∈ Reg.dispatching
  · obtain ⟨p, hp⟩ | rfl | rfl | rfl | rfl := dispatching_cases hd
    · rw [memWriteAt_port 2 p d s hp, portFanout_byteAt, stored]
    · rw [memWriteAt_adcsra_idle 3 d s (hadc rfl), stored]
    · obtain ⟨hr, hw⟩ := heecr rfl
      rw [memWriteAt_eecr_idle 3 d s hr hw, stored]
    · rw [memWriteAt_dac, dacLoad_byteAt, stored]
    · rw [memWriteAt_udr0, uartTransmit_byteAt_ne 2 d _ (by decide), stored]
  · rw [memWriteAt_plain 3 d s ha hd, stored]

/-- Settles O13: the WRITE is one MemWrite, and the premises rule out the two updates that change their own register. -/
theorem writtenByteReadsBack : Obligations.WrittenByteReadsBack := by
  intro s t a d ha h heecr hadc
  rw [exec_writeAt] at h
  obtain ⟨-, rfl⟩ := ifRunning_eq_next h
  refine memWrite_byteAt_same s ha (fun ea => ?_) fun ea => Bool.eq_false_iff.mpr fun hd => hadc ⟨ea, hd⟩
  exact ⟨Bool.eq_false_iff.mpr fun hd => heecr ⟨ea, .inl hd⟩,
    Bool.eq_false_iff.mpr fun hd => heecr ⟨ea, .inr hd⟩⟩

/-! The request a step runs. -/

theorem step_idle {s : State} (hs : s.Running) (hin : s.inbox = []) : step s = .next s := by
  simp only [step, hs, hin]

theorem step_resolved {s : State} {r : Request} {rest : List Request} {i : Instr} (hs : s.Running)
    (hin : s.inbox = r :: rest) (hr : resolve s r = .ok i) : step s = exec i { s with inbox := rest } := by
  simp only [step, hs, hin, hr]

theorem step_unresolved {s : State} {r : Request} {rest : List Request} {e : Refusal} (hs : s.Running)
    (hin : s.inbox = r :: rest) (hr : resolve s r = .error e) : step s = .refused e := by
  simp only [step, hs, hin, hr]

theorem resolve_word {w : BitVec 32} {v : Rat} {i : Instr} (s : State) (h : decodeTxn w v = .ok i) :
    resolve s (.word w v) = .ok i := by
  simp only [resolve, h]

theorem resolve_word_reserved {w : BitVec 32} {v : Rat} {e : Reject} (s : State) (h : decodeTxn w v = .error e) :
    resolve s (.word w v) = .error (.reservedWord w) := by
  simp only [resolve, h]

theorem resolve_line {i : Instr} (s : State) (h : i.isTransaction = true) : resolve s (.line i) = .ok i :=
  if_pos h

theorem resolve_line_command {i : Instr} (s : State) (h : i.isTransaction = false) :
    resolve s (.line i) = .error .notATransaction := by
  simp only [resolve, h, Bool.false_eq_true, if_false]

theorem writeBack_lastRead {s : State} {a : Nat} {x : Byte} (f : Byte → Byte) (h : lastRead s.answers a = some x) :
    writeBack s a f = .ok (writeAt a (f x)) := by
  simp only [writeBack, h]

theorem writeBack_unanswered {s : State} {a : Nat} (f : Byte → Byte) (h : lastRead s.answers a = none) :
    writeBack s a f = .error (.noReadAnswered a) := by
  simp only [writeBack, h]

/-- Settles O7: each request resolves as its kind says, the second half of SETB or CLRB by what the last READ of its
offset returned. -/
theorem stepRunsTheDecodedTransaction : Obligations.StepRunsTheDecodedTransaction := by
  intro s hs
  refine ⟨step_idle hs, fun rest w v i hin hw => step_resolved hs hin (resolve_word s hw),
    fun rest w v e hin hw => step_unresolved hs hin (resolve_word_reserved s hw),
    fun rest i hin hi => step_resolved hs hin (resolve_line s hi),
    fun rest i hin hi => step_unresolved hs hin (resolve_line_command s hi), fun rest a k => ⟨?_, ?_⟩⟩
  · intro xs x ys hanswers hlast
    have hread : lastRead s.answers a = some x := by rw [hanswers, lastRead_last xs x hlast]
    exact ⟨fun hin => step_resolved hs hin (writeBack_lastRead (withBit · k) hread),
      fun hin => step_resolved hs hin (writeBack_lastRead (withoutBit · k) hread)⟩
  · intro hnone hin
    have hread : lastRead s.answers a = none := lastRead_none hnone
    obtain hin | hin := hin
    · exact step_unresolved hs hin (writeBack_unanswered (withBit · k) hread)
    · exact step_unresolved hs hin (writeBack_unanswered (withoutBit · k) hread)

end Sys2Proof.Machine
end

section
/-! SUPPORT. The statements about the register commands (30_encoding.md R77 to R80, R85): which of them a byte selects,
and that each update runs those. -/

namespace Sys2Proof.Machine

/-! The commands a byte selects. -/

theorem clockSelect_lt (b : Byte) : (b &&& Bit.csMask).toNat < 8 := by
  rw [BitVec.toNat_and]
  exact Nat.lt_succ_of_le Nat.and_le_right

/-- The eight rows of TCCR0B are numbered by the clock select. -/
theorem decodeCommands_clockSelect (n : Nat) (b : Byte) :
    decodeCommands (.clockSelect n) b =
      (CommandPoint.clockSelect n).branches[(b &&& Bit.csMask).toNat]?.toList := by
  have hlt := clockSelect_lt b
  simp only [decodeCommands, CommandPoint.branches, List.filter_cons, List.filter_nil, selects_tccr0bCs0,
    selects_tccr0bCs1, selects_tccr0bCs2, selects_tccr0bCs3, selects_tccr0bCs4, selects_tccr0bCs5, selects_tccr0bCs6,
    selects_tccr0bCs7]
  generalize (b &&& Bit.csMask).toNat = cs at hlt
  interval_cases cs <;> rfl

theorem decodeCommands_adcStart (b : Byte) :
    decodeCommands .adcStart b = if bitOf b Bit.adsc then [.adcsraStart] else [.adcsraNostart] := by
  cases h : bitOf b Bit.adsc <;>
    simp [decodeCommands, CommandPoint.branches, selects_adcsraStart, selects_adcsraNostart, h]

theorem decodeCommands_adcLayout (r : BitVec 10) (b : Byte) :
    decodeCommands (.adcLayout r) b = if bitOf b Bit.adlar then [.admuxLeft r] else [.admuxRight r] := by
  cases h : bitOf b Bit.adlar <;>
    simp [decodeCommands, CommandPoint.branches, selects_admuxLeft, selects_admuxRight, h]

theorem decodeCommands_transmit (x b : Byte) :
    decodeCommands (.transmit x) b = if bitOf b Bit.txen then [.ucsr0bTxen x] else [.ucsr0bTxoff x] := by
  cases h : bitOf b Bit.txen <;>
    simp [decodeCommands, CommandPoint.branches, selects_ucsr0bTxen, selects_ucsr0bTxoff, h]

theorem decodeCommands_receive (x b : Byte) :
    decodeCommands (.receive x) b = if bitOf b Bit.rxen then [.ucsr0bRxen x] else [.ucsr0bRxoff x] := by
  cases h : bitOf b Bit.rxen <;>
    simp [decodeCommands, CommandPoint.branches, selects_ucsr0bRxen, selects_ucsr0bRxoff, h]

/-! Running commands one after another. -/

theorem execAll_cons {i : Instr} {s t : State} (is : List Instr) (h : exec i s = .next t) :
    execAll (i :: is) s = execAll is t := by
  simp only [execAll, h]

theorem execAll_singleton (i : Instr) (s : State) : execAll [i] s = exec i s := by
  simp only [execAll]
  cases exec i s <;> rfl

theorem execAll_idle {is : List Instr} {s : State} (h : ∀ i ∈ is, exec i s = .next s) : execAll is s = .next s := by
  induction is with
  | nil => rfl
  | cons i is ih =>
    rw [execAll_cons is (h i List.mem_cons_self)]
    exact ih fun j hj => h j (List.mem_cons_of_mem i hj)

/-! A command whose row is not selected. -/

theorem ifRunning_unselected {c : Bool} {s : State} (t : State) (hs : s.Running) (hc : c = false) :
    ifRunning s (if c then t else s) = .next s := by
  rw [hc]
  exact ifRunning_next hs

theorem clockBranch_unselected {cs : Nat} {s : State} (n : Nat) (hs : s.Running) (h : (clockSelect s == cs) = false) :
    ifRunning s (clockBranch cs n s) = .next s := by
  rw [clockBranch, if_neg (ne_of_beq_false h)]
  exact ifRunning_next hs

/-- Settles O6: each command's branch is guarded by what selecting its row asks of the byte. -/
theorem unselectedCommandsDoNothing : Obligations.UnselectedCommandsDoNothing := by
  intro s p i hs hi hsel
  cases p with
  | clockSelect n =>
    simp only [CommandPoint.branches, List.mem_cons, List.not_mem_nil, or_false] at hi
    obtain rfl | rfl | rfl | rfl | rfl | rfl | rfl | rfl := hi
    · exact clockBranch_unselected n hs ((selects_tccr0bCs0 n _).symm.trans hsel)
    · exact clockBranch_unselected n hs ((selects_tccr0bCs1 n _).symm.trans hsel)
    · exact clockBranch_unselected n hs ((selects_tccr0bCs2 n _).symm.trans hsel)
    · exact clockBranch_unselected n hs ((selects_tccr0bCs3 n _).symm.trans hsel)
    · exact clockBranch_unselected n hs ((selects_tccr0bCs4 n _).symm.trans hsel)
    · exact clockBranch_unselected n hs ((selects_tccr0bCs5 n _).symm.trans hsel)
    · exact clockBranch_unselected n hs ((selects_tccr0bCs6 n _).symm.trans hsel)
    · exact clockBranch_unselected n hs ((selects_tccr0bCs7 n _).symm.trans hsel)
  | eeprom =>
    simp only [CommandPoint.branches, List.mem_cons, List.not_mem_nil, or_false] at hi
    obtain rfl | rfl | rfl | rfl := hi
    · exact ifRunning_unselected _ hs ((selects_eecrRead _).symm.trans hsel)
    · exact ifRunning_unselected _ hs ((selects_eecrWrite _).symm.trans hsel)
    · exact ifRunning_unselected _ hs ((selects_eecrWriteDropped _).symm.trans hsel)
    · exact ifRunning_next hs
  | adcStart =>
    obtain rfl | rfl := List.mem_pair.mp hi
    · exact ifRunning_unselected _ hs ((selects_adcsraStart _).symm.trans hsel)
    · exact ifRunning_next hs
  | adcLayout r =>
    obtain rfl | rfl := List.mem_pair.mp hi
    · exact ifRunning_unselected _ hs ((selects_admuxLeft r _).symm.trans hsel)
    · exact ifRunning_unselected _ hs ((selects_admuxRight r _).symm.trans hsel)
  | transmit x =>
    obtain rfl | rfl := List.mem_pair.mp hi
    · exact ifRunning_unselected _ hs ((selects_ucsr0bTxen x _).symm.trans hsel)
    · exact ifRunning_next hs
  | receive x =>
    obtain rfl | rfl := List.mem_pair.mp hi
    · exact ifRunning_unselected _ hs ((selects_ucsr0bRxen x _).symm.trans hsel)
    · exact ifRunning_next hs

/-! STEP by the row of its clock select. -/

theorem execAll_clockBranch (n : Nat) {cs : Nat} (hcs : cs < 8) (s : State) :
    execAll (CommandPoint.clockSelect n).branches[cs]?.toList s = ifRunning s (clockBranch cs n s) := by
  interval_cases cs <;> exact execAll_singleton _ s

theorem clockBranch_clockSelect (n : Nat) (s : State) : clockBranch (clockSelect s) n s = timerStep n s :=
  if_pos rfl

theorem execAll_clockSelect (n : Nat) (s : State) :
    execAll (decodeCommands (.clockSelect n) (s.byteAt Reg.tccr0b)) s = exec (.step n) s := by
  rw [decodeCommands_clockSelect, execAll_clockBranch n (clockSelect_lt _)]
  exact congrArg (ifRunning s) (clockBranch_clockSelect n s)

/-! EepromUpdate by the rows EECR selects: the read branch's write of EECR runs the write branch itself, one level down,
so the write command that follows finds EEWE clear (42_eeprom.md R131, R136). -/

/-- A write of EECR with EERE clear raises no fault. -/
theorem memWriteAt_eecr_fault (k : Nat) {v : Byte} (s : State) (hr : bitOf v Bit.eere = false) :
    (memWriteAt (k + 1) Reg.eecr v s).fault = s.fault := by
  cases hw : bitOf v Bit.eewe with
  | false => rw [memWriteAt_eecr_idle _ _ _ hr hw, State.record_fault]
  | true =>
    cases hg : bitOf v Bit.eemwe with
    | false => rw [memWriteAt_eecr_dropped _ _ _ hr hw hg, State.record_fault, State.record_fault]
    | true => rw [memWriteAt_eecr_write _ _ _ hr hw hg, State.record_fault, State.eeStore_fault, State.record_fault]

theorem eepromRead_running {s : State} (addr : Nat) (hs : s.Running) : (eepromRead memWrite addr s).Running := by
  have stored : memWrite Reg.eedr (s.eeByteAt addr) s = s.record Reg.eedr (s.eeByteAt addr) :=
    memWriteAt_plain _ _ s (by decide) (by decide)
  have nested : (eepromRead memWrite addr s).fault = (memWrite Reg.eedr (s.eeByteAt addr) s).fault :=
    memWriteAt_eecr_fault 2 _ (bitOf_withoutBit_same _ (by decide))
  rw [State.Running, nested, stored]
  exact hs

theorem eepromRead_eewe (addr : Nat) (s : State) :
    bitOf ((eepromRead memWrite addr s).byteAt Reg.eecr) Bit.eewe = false :=
  memWriteAt_eecr_clears 2 _ _ (bitOf_withoutBit_same _ (by decide))

theorem eepromUpdate_read {s : State} (hr : bitOf (s.byteAt Reg.eecr) Bit.eere = true) :
    eepromUpdate memWrite s = eepromRead memWrite (eepromAddr s) s := by
  simp [eepromUpdate, hr, eepromRead_eewe]

theorem execAll_eeprom {s : State} (hs : s.Running) :
    execAll (decodeCommands .eeprom (s.byteAt Reg.eecr)) s = .next (eepromUpdate memWrite s) := by
  cases hr : bitOf (s.byteAt Reg.eecr) Bit.eere with
  | true =>
    have hread : exec .eecrRead s = .next (eepromRead memWrite (eepromAddr s) s) := by
      refine (ifRunning_next hs).trans ?_
      rw [hr]
      rfl
    have hrun := eepromRead_running (eepromAddr s) hs
    have hw := eepromRead_eewe (eepromAddr s) s
    have hfirst : decodeCommands .eeprom (s.byteAt Reg.eecr) =
        .eecrRead :: [.eecrWrite, .eecrWriteDropped, .eecrGateOnly].filter (·.selects (s.byteAt Reg.eecr)) :=
      List.filter_cons_of_pos ((selects_eecrRead _).trans hr)
    rw [hfirst, execAll_cons _ hread, eepromUpdate_read hr]
    refine execAll_idle fun i hi => ?_
    have hmem := List.mem_of_mem_filter hi
    simp only [List.mem_cons, List.not_mem_nil, or_false] at hmem
    obtain rfl | rfl | rfl := hmem
    · exact ifRunning_unselected _ hrun (by rw [hw, Bool.false_and])
    · exact ifRunning_unselected _ hrun (by rw [hw, Bool.false_and])
    · exact ifRunning_next hrun
  | false =>
    cases hw : bitOf (s.byteAt Reg.eecr) Bit.eewe <;> cases hg : bitOf (s.byteAt Reg.eecr) Bit.eemwe <;>
      simp [decodeCommands, CommandPoint.branches, selects_eecrRead, selects_eecrWrite, selects_eecrWriteDropped,
        selects_eecrGateOnly, eepromUpdate, execAll, exec, execEecrWrite, execEecrWriteDropped, execEecrGateOnly,
        ifRunning_next hs, hr, hw, hg]

/-! The updates with two rows. -/

theorem execAll_adcStart {s : State} (hs : s.Running) :
    execAll (decodeCommands .adcStart (s.byteAt Reg.adcsra)) s = .next (adcUpdate memWrite s) := by
  rw [decodeCommands_adcStart]
  cases h : bitOf (s.byteAt Reg.adcsra) Bit.adsc <;>
    simp [execAll, exec, execAdcsraStart, execAdcsraNostart, adcUpdate, ifRunning_next hs, h]

theorem execAll_adcLayout {s : State} (hs : s.Running) (r : BitVec 10) :
    execAll (decodeCommands (.adcLayout r) (s.byteAt Reg.admux)) s =
      .next (if bitOf (s.byteAt Reg.admux) Bit.adlar then adcStoreLeft memWrite r s
        else adcStoreRight memWrite r s) := by
  rw [decodeCommands_adcLayout]
  cases h : bitOf (s.byteAt Reg.admux) Bit.adlar <;>
    simp [execAll, exec, execAdmuxLeft, execAdmuxRight, ifRunning_next hs, h]

theorem execAll_transmit {s : State} (hs : s.Running) (b : Byte) :
    execAll (decodeCommands (.transmit b) (s.byteAt Reg.ucsr0b)) s = .next (uartTransmit memWrite b s) := by
  rw [decodeCommands_transmit]
  cases h : bitOf (s.byteAt Reg.ucsr0b) Bit.txen <;>
    simp [execAll, exec, execUcsr0bTxen, execUcsr0bTxoff, uartTransmit, ifRunning_next hs, h]

theorem execAll_receive {s : State} (hs : s.Running) (b : Byte) :
    execAll (decodeCommands (.receive b) (s.byteAt Reg.ucsr0b)) s = exec (.rxinj b) s := by
  rw [decodeCommands_receive]
  cases h : bitOf (s.byteAt Reg.ucsr0b) Bit.rxen <;>
    simp [execAll, exec, execUcsr0bRxen, execUcsr0bRxoff, execRxinj, uartReceive, ifRunning_next hs, h]

/-- Settles O5, update by update. -/
theorem updatesRunTheSelectedCommands : Obligations.UpdatesRunTheSelectedCommands := fun s hs =>
  ⟨fun n => execAll_clockSelect n s, execAll_eeprom hs, execAll_adcStart hs, execAll_adcLayout hs, execAll_transmit hs,
    execAll_receive hs⟩

end Sys2Proof.Machine
end

section
/-! SUPPORT. The statements about the transaction word (30_encoding.md R71 to R73, R84, R85): what each word spells, and
that encoder and decoder agree. -/

namespace Sys2Proof

open Machine

/-! The row a WRITE's offset selects. -/

/-- The row of a WRITE: the generic one where no row names the offset, else a row that fixes field A. -/
theorem writeAt_cases (a : Nat) (d : Byte) :
    a ∉ Reg.dispatching ∧ writeAt a d = .write a d ∨
      a ∈ Reg.dispatching ∧ (writeAt a d).row = writeRow a ∧ (writeAt a d).isTransaction = true ∧
        (writeAt a d).wellFormed = true ∧ encode (writeAt a d) = .txn (encodeWrite a d) 0 := by
  unfold writeAt
  split_ifs
  case neg => exact .inl ⟨by simp_all [Reg.dispatching], rfl⟩
  all_goals
    subst a
    exact .inr ⟨by decide, rfl, rfl, rfl, rfl⟩

theorem writeAt_generic {a : Nat} (d : Byte) (ha : a ∉ Reg.dispatching) : writeAt a d = .write a d := by
  obtain ⟨-, h⟩ | ⟨hd, -⟩ := writeAt_cases a d
  · exact h
  · exact absurd hd ha

theorem writeTarget_writeAt (a : Nat) (d : Byte) : (writeAt a d).writeTarget = some a := by
  unfold writeAt
  split_ifs <;> subst_vars <;> rfl

theorem isTransaction_writeAt (a : Nat) (d : Byte) : (writeAt a d).isTransaction = true := by
  obtain ⟨-, h⟩ | ⟨-, -, h, -, -⟩ := writeAt_cases a d
  · rw [h]
    rfl
  · exact h

theorem wellFormed_writeAt {a : Nat} (d : Byte) (ha : a < 2 ^ 16) : (writeAt a d).wellFormed = true := by
  obtain ⟨hd, h⟩ | ⟨-, -, -, h, -⟩ := writeAt_cases a d
  · simpa [h, Instr.wellFormed, hd] using ha
  · exact h

theorem encode_writeAt (a : Nat) (d : Byte) : encode (writeAt a d) = .txn (encodeWrite a d) 0 := by
  obtain ⟨-, h⟩ | ⟨-, -, -, -, h⟩ := writeAt_cases a d
  · rw [h]
    rfl
  · exact h

theorem encodeWrite_and_row (a : Nat) (d : Byte) :
    encodeWrite a d &&& (writeAt a d).row.mask = (writeAt a d).row.pattern := by
  obtain ⟨-, h⟩ | ⟨-, h, -, -, -⟩ := writeAt_cases a d <;> rw [h]
  · exact Laws.RowMatch.write_row _ d
  · exact Laws.RowMatch.full_row 2 0 _ d

/-! What a word spells. -/

/-- The word w with side operand v spells the transaction (R71, R72): the table of R71, a WRITE by the row of its
offset. -/
inductive Spells (v : Rat) : BitVec 32 → Instr → Prop where
  | read (a : BitVec 16) : Spells v (packWord 1 0 a 0) (.read a.toNat)
  | write (a : BitVec 16) (d : Byte) : Spells v (packWord 2 0 a d) (writeAt a.toNat d)
  | step {n : Nat} (hn : n < 2 ^ 28) : Spells v (packStep n) (.step n)
  | rxinj (b : Byte) : Spells v (packWord 4 0 0 b) (.rxinj b)
  | setain : Spells v (packWord 5 0 0 0) (.setain v)
  | dacout : Spells v (packWord 6 0 0 0) .dacout

theorem Spells.decodeTxn_eq {v : Rat} {w : BitVec 32} {i : Instr} (h : Spells v w i) : decodeTxn w v = .ok i := by
  cases h with
  | step hn => simp only [decodeTxn, fields_packStep, Nat.mod_eq_of_lt hn]
  | read a | write a d | rxinj b | setain | dacout => simp [decodeTxn, fields_packWord]

/-- What decodes is spelled: the decoder tested the kind and each zero field of the word. -/
theorem spells_of_decodeTxn {v : Rat} {w : BitVec 32} {i : Instr} (h : decodeTxn w v = .ok i) : Spells v w i := by
  obtain ⟨k, hi, a, d, rfl⟩ : ∃ k hi a d, w = packWord k hi a d := ⟨_, _, _, _, (packWord_fields w).symm⟩
  have kind : ∀ c : BitVec 4, k.toNat = c.toNat → k = c := fun _ => BitVec.eq_of_toNat_eq
  simp only [decodeTxn, fields_packWord] at h
  split at h <;> rename_i hk
  · obtain rfl := kind 1 hk
    split_ifs at h with hz
    obtain ⟨rfl, rfl⟩ := hz
    cases h
    exact .read a
  · obtain rfl := kind 2 hk
    split_ifs at h with hz
    obtain rfl := hz
    cases h
    exact .write a d
  · cases h
    have spelled := Spells.step (v := v) (fieldN (packWord k hi a d)).isLt
    rwa [packStep_fieldN _ (by rwa [(fields_packWord k hi a d).1])] at spelled
  · obtain rfl := kind 4 hk
    split_ifs at h with hz
    obtain ⟨rfl, rfl⟩ := hz
    cases h
    exact .rxinj d
  · obtain rfl := kind 5 hk
    split_ifs at h with hz
    obtain ⟨rfl, rfl, rfl⟩ := hz
    cases h
    exact .setain
  · obtain rfl := kind 6 hk
    split_ifs at h with hz
    obtain ⟨rfl, rfl, rfl⟩ := hz
    cases h
    exact .dacout
  · cases h

/-! The words that are refused. -/

theorem packWord_eq_zero {k hi : BitVec 4} {a : BitVec 16} {d : Byte} :
    packWord k hi a d = 0 ↔ k = 0 ∧ hi = 0 ∧ a = 0 ∧ d = 0 := by
  constructor
  · intro h
    obtain ⟨hk, hhi, ha, hd⟩ := fields_packWord k hi a d
    rw [h] at hk hhi ha hd
    exact ⟨hk.symm, hhi.symm, ha.symm, hd.symm⟩
  · rintro ⟨rfl, rfl, rfl, rfl⟩
    rfl

/-- A mask over the fields below K tests them one by one. -/
theorem and_packWord_eq_zero (w : BitVec 32) (hi : BitVec 4) (a : BitVec 16) (d : Byte) :
    w &&& packWord 0 hi a d = 0 ↔ fieldHi w &&& hi = 0 ∧ fieldA w &&& a = 0 ∧ fieldD w &&& d = 0 := by
  rw [← packWord_fields w, packWord_and, packWord_eq_zero, packWord_fields w]
  simp

/-- The zero fields of the kinds in R71 as masks over the word: READ, WRITE, RXINJ, and SETAIN and DACOUT. -/
theorem and_zeroFields (w : BitVec 32) :
    (w &&& 0x0F0000FF#32 = 0#32 ↔ fieldHi w = 0 ∧ fieldD w = 0) ∧ (w &&& 0x0F000000#32 = 0#32 ↔ fieldHi w = 0) ∧
      (w &&& 0x0FFFFF00#32 = 0#32 ↔ fieldHi w = 0 ∧ fieldA w = 0) ∧
      (w &&& 0x0FFFFFFF#32 = 0#32 ↔ fieldHi w = 0 ∧ fieldA w = 0 ∧ fieldD w = 0) := by
  have fields := and_packWord_eq_zero w
  refine ⟨(fields (BitVec.allOnes 4) 0#16 (BitVec.allOnes 8)).trans ?_, (fields (BitVec.allOnes 4) 0#16 0#8).trans ?_,
    (fields (BitVec.allOnes 4) (BitVec.allOnes 16) 0#8).trans ?_,
    (fields (BitVec.allOnes 4) (BitVec.allOnes 16) (BitVec.allOnes 8)).trans ?_⟩ <;>
    simp only [BitVec.and_allOnes, BitVec.and_zero, BitVec.ofNat_eq_ofNat, true_and, and_true]

/-- A kind with a zero field is refused exactly where the field is not zero. -/
theorem guarded_error {c : Prop} [Decidable c] {i : Instr} (e : Reject) :
    (if c then .ok i else .error .nonZeroField : Except Reject Instr) = .error e ↔ ¬c ∧ e = .nonZeroField := by
  by_cases h : c <;> simp [h, eq_comm]

/-! Encoder and decoder. -/

/-- The code of a well-formed transaction is a word that spells it. -/
theorem Instr.spelled {i : Instr} (ht : i.isTransaction = true) (hw : i.wellFormed = true) :
    ∃ w v, encode i = .txn w v ∧ Spells v w i := by
  have offset : ∀ {a : Nat}, a < 2 ^ 16 → (BitVec.ofNat 16 a).toNat = a := fun ha => by
    rw [BitVec.toNat_ofNat, Nat.mod_eq_of_lt ha]
  have spellsWrite : ∀ {a : Nat} (d : Byte), a < 2 ^ 16 → Spells 0 (encodeWrite a d) (writeAt a d) := fun {a} d ha => by
    have spelled := Spells.write (v := 0) (BitVec.ofNat 16 a) d
    rwa [offset ha] at spelled
  cases i
  case read a =>
    have spelled := Spells.read (v := 0) (BitVec.ofNat 16 a)
    rw [offset (by simpa [Instr.wellFormed] using hw)] at spelled
    exact ⟨_, _, rfl, spelled⟩
  case write a d =>
    simp only [Instr.wellFormed, Bool.and_eq_true, decide_eq_true_eq, Bool.not_eq_true', List.contains_eq_mem,
      decide_eq_false_iff_not] at hw
    obtain ⟨ha, hd⟩ := hw
    have spelled := spellsWrite d ha
    rw [writeAt_generic d hd] at spelled
    exact ⟨_, _, rfl, spelled⟩
  case step n => exact ⟨_, _, rfl, .step (by simpa [Instr.wellFormed] using hw)⟩
  case rxinj b => exact ⟨_, _, rfl, .rxinj b⟩
  case setain v => exact ⟨_, _, rfl, .setain⟩
  case dacout => exact ⟨_, _, rfl, .dacout⟩
  case writePinb d | writePortb d | writePinc d | writePortc d | writePind d | writePortd d | writeAdcsra d
    | writeEecr d | writeDac d | writeUdr0 d => exact ⟨_, _, rfl, spellsWrite d (by decide)⟩
  all_goals cases ht

/-- The byte of a register command's row selects that row alone at its point. -/
theorem decode_encode_command {i : Instr} (hc : i.isTransaction = false) : decode (encode i) = .ok [i] := by
  cases i
  case tccr0bCs0 n | tccr0bCs1 n | tccr0bCs2 n | tccr0bCs3 n | tccr0bCs4 n | tccr0bCs5 n | tccr0bCs6 n | tccr0bCs7 n =>
    simp only [encode, decode, decodeCommands_clockSelect, Instr.patternByte, Instr.row]
    rfl
  case eecrRead | eecrWrite | eecrWriteDropped | eecrGateOnly | adcsraStart | adcsraNostart => rfl
  case admuxLeft r | admuxRight r =>
    simp only [encode, decode, decodeCommands_adcLayout, Instr.patternByte, Instr.row]
    rfl
  case ucsr0bTxen x | ucsr0bTxoff x =>
    simp only [encode, decode, decodeCommands_transmit, Instr.patternByte, Instr.row]
    rfl
  case ucsr0bRxen x | ucsr0bRxoff x =>
    simp only [encode, decode, decodeCommands_receive, Instr.patternByte, Instr.row]
    rfl
  all_goals cases hc

end Sys2Proof

namespace Sys2Proof.Machine

/-- Settles O1: a transaction's word spells it, and a command's byte selects its row alone. -/
theorem encodeThenDecodeIsIdentity : Obligations.EncodeThenDecodeIsIdentity := by
  intro i hi
  cases ht : i.isTransaction with
  | true =>
    obtain ⟨w, v, hcode, hspells⟩ := i.spelled ht hi
    simp only [hcode, decode, hspells.decodeTxn_eq, Except.map]
  | false => exact decode_encode_command ht

/-- Settles O2, by what each word spells. -/
theorem decodedWordIsItsCode : Obligations.DecodedWordIsItsCode := by
  intro w v i h
  cases spells_of_decodeTxn h with
  | read a =>
    have hcode : packWord 1 0 (BitVec.ofNat 16 a.toNat) 0 = packWord 1 0 a 0 := by simp
    exact ⟨rfl, decide_eq_true a.isLt, Laws.RowMatch.read_row a, ⟨0, congrArg (Code.txn · 0) hcode⟩, nofun⟩
  | write a d =>
    have hcode : encodeWrite a.toNat d = packWord 2 0 a d := by simp [encodeWrite]
    refine ⟨isTransaction_writeAt _ d, wellFormed_writeAt d a.isLt, ?_, ⟨0, ?_⟩, fun x hx => ?_⟩
    · rw [← hcode, encodeWrite_and_row]
    · rw [encode_writeAt, hcode]
    · have htarget := writeTarget_writeAt a.toNat d
      rw [hx] at htarget
      cases htarget
  | step hn => exact ⟨rfl, decide_eq_true hn, Laws.RowMatch.step_row _, ⟨0, rfl⟩, nofun⟩
  | rxinj b => exact ⟨rfl, rfl, Laws.RowMatch.rxinj b, ⟨0, rfl⟩, nofun⟩
  | setain => exact ⟨rfl, rfl, Laws.RowMatch.setain v, ⟨v, rfl⟩, fun x hx => (Instr.setain.inj hx).symm⟩
  | dacout => exact ⟨rfl, rfl, Laws.RowMatch.dacout, ⟨0, rfl⟩, nofun⟩

/-- Settles O4, kind by kind. -/
theorem reservedWordsAreRefused : Obligations.ReservedWordsAreRefused := by
  intro w v
  obtain ⟨hread, hwrite, hrxinj, hempty⟩ := and_zeroFields w
  rw [← (toNat_fields w).1]
  simp only [List.mem_cons, List.not_mem_nil, or_false, exists_eq_or_imp, exists_eq_left, ne_eq, hread, hwrite, hrxinj,
    hempty]
  unfold decodeTxn
  generalize (fieldK w).toNat = k
  match k with
  | 0 | 1 | 2 | 3 | 4 | 5 | 6 | k + 7 => simp [guarded_error]

/-- Settles O3: the decoder runs on each word. -/
theorem specWordsDecode : Obligations.SpecWordsDecode :=
  ⟨rfl, rfl, rfl, rfl, rfl, rfl, rfl, rfl, rfl⟩

end Sys2Proof.Machine
end

section
/-! SUPPORT. The statements about SETB, CLRB and the WRITE rows (30_encoding.md R75, R85; 40_bus_dispatch.md R91,
R92). -/

namespace Sys2Proof.Machine

/-- Settles O12: both are the one MemWrite. -/
theorem genericWriteActsAsItsRow : Obligations.GenericWriteActsAsItsRow := fun s a d =>
  (exec_writeAt a d s).symm

/-! The notification of a WRITE comes before every other event of it. -/

theorem dispatch_effects (k : Nat) {a : Nat} (old new : Byte) (s : State) (ha : a ≠ Reg.dac) :
    Effects s (dispatch (memWriteAt k) a old new s) := by
  have inner : WriterEffects (memWriteAt k) := fun b v t _ hb => memWriteAt_effects k b v t (.inr hb)
  refine (dispatchGpio_effects a old new s).trans ?_
  unfold dispatch dispatchAddress
  rw [if_neg ha]
  split_ifs
  · exact adcUpdate_effects inner _
  · exact eepromUpdate_effects inner _
  · exact uartTransmit_effects inner _ _
  · exact .refl

theorem memWrite_trace {a : Nat} (v : Byte) (s : State) (ha : a < Param.memSize) :
    ∃ es, (memWrite a v s).trace = s.trace ++ .memChange a (s.byteAt a) v :: es := by
  have stored : (s.record a v).trace <+: (memWrite a v s).trace := by
    by_cases hd : a = Reg.dac
    · subst hd
      rw [memWrite, maxNesting, memWriteAt_dac, dacLoad_trace]
    · rw [memWrite, maxNesting, memWriteAt_succ 2 v s ha]
      exact (dispatch_effects 2 _ v _ hd).growsTo.1
  obtain ⟨es, hes⟩ := stored
  exact ⟨es, by rw [← hes, State.record_trace, List.append_assoc, List.singleton_append]⟩

/-! The two halves of SETB and CLRB. -/

theorem exec_read {s : State} {a : Nat} (hs : s.Running) (ha : a < Param.memSize) :
    exec (.read a) s = .next (s.answer (.read a (s.byteAt a))) :=
  (ifRunning_next hs).trans (congrArg _ (if_neg (Nat.not_le.mpr ha)))

/-- Right after a READ of the offset the byte written back is computed from what it returned. -/
theorem writeBack_read {t : State} {xs : List Answer} {a : Nat} {x : Byte} (f : Byte → Byte)
    (h : t.answers = xs ++ [.read a x]) : writeBack t a f = .ok (writeAt a (f x)) :=
  writeBack_lastRead f (by rw [h, lastRead_last xs x fun _ => List.not_mem_nil])

theorem exec_writeAt_answers {s t : State} {a : Nat} {d : Byte} (h : exec (writeAt a d) s = .next t) :
    t.answers = s.answers := by
  refine (exec_answers h).resolve_right fun hreturns => ?_
  have htarget := writeTarget_writeAt a d
  obtain ⟨b, hi⟩ | hi := hreturns <;> rw [hi] at htarget <;> cases htarget

/-- The state once a READ of offset a has answered, with the requests rest waiting. -/
abbrev State.afterRead (s : State) (a : Nat) (rest : List Request) : State :=
  { s with answers := s.answers ++ [.read a (s.byteAt a)], inbox := rest }

/-- A READ and a request that then stands for a WRITE of byte x to the same offset, run by two steps. -/
theorem step_read_then_writeBack {s : State} {a : Nat} {x : Byte} {r : Request} {rest : List Request} (hs : s.Running)
    (ha : a < Param.memSize) (hin : s.inbox = .line (.read a) :: r :: rest)
    (hr : ∀ t, t.answers = s.answers ++ [.read a (s.byteAt a)] → resolve t r = .ok (writeAt a x)) :
    ∃ t u es, step s = .next t ∧ step t = .next u ∧ exec (writeAt a x) (s.afterRead a rest) = .next u ∧
      u.trace = s.trace ++ .memChange a (s.byteAt a) x :: es ∧ u.inbox = rest ∧
      u.answers = s.answers ++ [.read a (s.byteAt a)] ∧
      (¬(a = Reg.eecr ∧ (bitOf x Bit.eere = true ∨ bitOf x Bit.eewe = true)) →
        ¬(a = Reg.adcsra ∧ bitOf x Bit.adsc = true) → u.byteAt a = x) := by
  have hread : step s = .next (s.afterRead a (r :: rest)) :=
    (step_resolved hs hin (resolve_line s rfl)).trans (exec_read (s := { s with inbox := r :: rest }) hs ha)
  have hback : step (s.afterRead a (r :: rest)) = exec (writeAt a x) (s.afterRead a rest) :=
    step_resolved hs rfl (hr _ rfl)
  have hwrite : exec (writeAt a x) (s.afterRead a rest) = .next (memWrite a x (s.afterRead a rest)) :=
    (exec_writeAt a x _).trans (ifRunning_next hs)
  obtain ⟨es, htrace⟩ := memWrite_trace x (s.afterRead a rest) ha
  exact ⟨_, _, es, hread, hback.trans hwrite, hwrite, htrace, exec_inbox hwrite, exec_writeAt_answers hwrite,
    writtenByteReadsBack _ _ a x ha hwrite⟩

/-- Settles O8: the second half stands for the WRITE of what the READ before it returned. -/
theorem setbAndClrbWriteBackTheReadByte : Obligations.SetbAndClrbWriteBackTheReadByte := by
  refine ⟨fun s t a i ha h => ?_, fun s a i rest hs ha x hx hin => ?_⟩
  · rw [exec_read (exec_effects h).1 ha] at h
    cases h
    exact ⟨writeBack_read (withBit · i) rfl, writeBack_read (withoutBit · i) rfl⟩
  · obtain rfl | rfl := List.mem_pair.mp hx
    · exact step_read_then_writeBack hs ha hin fun _ hread => writeBack_read (withBit · i) hread
    · exact step_read_then_writeBack hs ha hin fun _ hread => writeBack_read (withoutBit · i) hread

end Sys2Proof.Machine
end

section
/-! SUPPORT. The statements about the multiplexer's nesting, the block's own stores, READ and the DAC
(40_bus_dispatch.md R91, R95, R96, R98, R99). -/

namespace Sys2Proof.Machine

/-! Nested dispatch. -/

/-- A conversion's own writes dispatch nothing further, so its level does not matter. -/
theorem adcUpdate_level (j k : Nat) (s : State) : adcUpdate (memWriteAt j) s = adcUpdate (memWriteAt k) s := by
  simp only [adcUpdate, adcConvert_memWriteAt]

/-- A transmit's flag write dispatches nothing further, so its level does not matter. -/
theorem uartTransmit_level (j k : Nat) (v : Byte) (s : State) :
    uartTransmit (memWriteAt j) v s = uartTransmit (memWriteAt k) v s := by
  simp only [uartTransmit, uartSend_memWriteAt]

/-- Settles O17: of the updates a write may select, only that of EECR dispatches again, once for each of its command
bits. -/
theorem threeNestingLevelsSuffice : Obligations.ThreeNestingLevelsSuffice := by
  intro k a v s
  by_cases ha : Param.memSize ≤ a
  · rw [memWriteAt_outOfBounds _ _ _ ha, memWriteAt_outOfBounds _ _ _ ha]
  by_cases hd : a ∈ Reg.dispatching
  · obtain ⟨p, hp⟩ | rfl | rfl | rfl | rfl := dispatching_cases hd
    · rw [memWriteAt_port _ p v s hp, memWriteAt_port _ p v s hp]
    · rw [memWriteAt_adcsra, memWriteAt_adcsra, adcUpdate_level]
    · exact memWriteAt_eecr_stable k v s
    · rw [memWriteAt_dac, memWriteAt_dac]
    · rw [memWriteAt_udr0, memWriteAt_udr0, uartTransmit_level]
  · rw [memWriteAt_plain _ v s (by omega) hd, memWriteAt_plain _ v s (by omega) hd]

/-! The block's own stores. -/

/-- Every store of the block's own is in one of nine registers (40_bus_dispatch.md R98). -/
theorem ownStore_mem {i : Instr} {a : Nat} {old new : Byte} (h : OwnStore i a old new) :
    a ∈ [Reg.tifr0, Reg.eecr, Reg.eedr, Reg.tcnt0, Reg.adcl, Reg.adch, Reg.adcsra, Reg.ucsr0a, Reg.udr0] := by
  cases h with
  | data _ _ ha =>
    revert a
    decide
  | overflow | converted | transmitted | received => decide

/-- Settles O18: an effect that changes a byte the instruction does not name is a store of the block's own. -/
theorem blockWritesOnlyItsOwnRegisters : Obligations.BlockWritesOnlyItsOwnRegisters := by
  intro i s t a h hw hown
  exact ((exec_effectsOf h).unchanged_or (State.byteAt · a) fun _ _ heff =>
    (heff.byteAt_cases hw).imp_right ownStore_mem).resolve_right hown

/-! READ and the DAC. -/

/-- Settles O10. -/
theorem readReturnsTheByte : Obligations.ReadReturnsTheByte := fun _ _ hs ha => exec_read hs ha

theorem storesOnly_record (s : State) (a : Nat) (v : Byte) : s.StoresOnly (s.record a v) [(a, v)] := by
  intro b
  by_cases h : b = a
  · simp [h]
  · simp [State.byteAt_record_ne _ _ h, Ne.symm h]

/-- A WRITE of the DAC's offset is its store and the load of the output. -/
theorem exec_writeDac {s : State} (d : Byte) (hs : s.Running) :
    exec (.writeDac d) s = .next (dacLoad d (s.record Reg.dac d)) :=
  (ifRunning_next hs).trans (congrArg _ (memWriteAt_dac 2 d s))

/-- Settles O14: the load changes the output alone, so M and the trace are as the store left them. -/
theorem writeDacLoadsTheOutput : Obligations.WriteDacLoadsTheOutput := fun s d hs =>
  ⟨_, exec_writeDac d hs, rfl, storesOnly_record s Reg.dac d, rfl, rfl, rfl, rfl, rfl, rfl, rfl⟩

/-- The voltage of a byte in lowest terms, 255 being 51 * 5 (40_bus_dispatch.md R96). -/
theorem dacVoltage_eq_div (b : Byte) : dacVoltage b = (b.toNat : Rat) / 51 := by
  rw [dacVoltage_eq]
  ring

/-- Settles O15: the voltage is byte / 51, and a byte is at most 255. -/
theorem dacoutReturnsByteAndVoltage : Obligations.DacoutReturnsByteAndVoltage := by
  intro s hs
  have hbyte : (s.dac.toNat : Rat) ≤ 255 := by exact_mod_cast Nat.le_of_lt_succ s.dac.isLt
  refine ⟨dacVoltage s.dac, ifRunning_next hs, ?_, dacVoltage_eq_div _, ?_, ?_⟩ <;> rw [dacVoltage_eq_div]
  · ring
  · positivity
  · linarith

end Sys2Proof.Machine
end

section
/-! SUPPORT. The statements about the timer (41_timer.md R110 to R114, R117): what one tick and n ticks store and
notify, and that a STEP is the ticks of its quotient. -/

namespace Sys2Proof.Machine

/-! Frames. -/

theorem State.SameBesidesMem.trans {s t u : State} (h : s.SameBesidesMem t) (h' : t.SameBesidesMem u) :
    s.SameBesidesMem u := by
  obtain ⟨heeprom, hacc, hain, hdac, hfault, hanswers, hinbox⟩ := h'
  rw [State.SameBesidesMem, heeprom, hacc, hain, hdac, hfault, hanswers, hinbox]
  exact h

theorem sameBesidesMem_refl (s : State) : s.SameBesidesMem s := ⟨rfl, rfl, rfl, rfl, rfl, rfl, rfl⟩

theorem sameBesidesMem_record (s : State) (a : Nat) (v : Byte) : s.SameBesidesMem (s.record a v) :=
  ⟨rfl, rfl, rfl, rfl, rfl, rfl, rfl⟩

theorem storesOnly_pair {s t : State} {a b : Nat} {v w : Byte} (ha : t.byteAt a = v) (hb : t.byteAt b = w)
    (hother : ∀ c, c ≠ a → c ≠ b → t.byteAt c = s.byteAt c) : s.StoresOnly t [(a, v), (b, w)] := by
  intro c
  by_cases hca : a = c
  · simp [← hca, ha]
  · by_cases hcb : b = c
    · subst hcb
      simp [hca, hb]
    · simp [hca, hcb, hother c (Ne.symm hca) (Ne.symm hcb)]

/-! One tick. -/

theorem tick_wrap {s : State} (h : s.byteAt Reg.tcnt0 = 255#8) :
    tick s = (s.record Reg.tcnt0 0#8).record Reg.tifr0 (withBit (s.byteAt Reg.tifr0) Bit.tov) :=
  (tick_record s).trans (if_pos h)

theorem tick_noWrap {s : State} (h : s.byteAt Reg.tcnt0 ≠ 255#8) :
    tick s = s.record Reg.tcnt0 (s.byteAt Reg.tcnt0 + 1#8) :=
  (tick_record s).trans (if_neg h)

theorem tick_sameBesidesMem (s : State) : s.SameBesidesMem (tick s) := by
  by_cases h : s.byteAt Reg.tcnt0 = 255#8
  · rw [tick_wrap h]
    exact (sameBesidesMem_record _ _ _).trans (sameBesidesMem_record _ _ _)
  · rw [tick_noWrap h]
    exact sameBesidesMem_record _ _ _

/-- The wrap is the byte's own: 255 + 1 is 0. -/
theorem tick_tcnt0 (s : State) : (tick s).byteAt Reg.tcnt0 = s.byteAt Reg.tcnt0 + 1#8 := by
  by_cases h : s.byteAt Reg.tcnt0 = 255#8
  · rw [tick_wrap h, State.byteAt_record_ne _ _ (by decide), State.byteAt_record_same, h]
    rfl
  · rw [tick_noWrap h, State.byteAt_record_same]

theorem tick_tifr0 (s : State) :
    (tick s).byteAt Reg.tifr0 =
      if s.byteAt Reg.tcnt0 = 255#8 then withBit (s.byteAt Reg.tifr0) Bit.tov else s.byteAt Reg.tifr0 := by
  by_cases h : s.byteAt Reg.tcnt0 = 255#8
  · rw [tick_wrap h, State.byteAt_record_same, if_pos h]
  · rw [tick_noWrap h, State.byteAt_record_ne _ _ (by decide), if_neg h]

theorem tick_byteAt_ne (s : State) {a : Nat} (hc : a ≠ Reg.tcnt0) (hf : a ≠ Reg.tifr0) :
    (tick s).byteAt a = s.byteAt a := by
  by_cases h : s.byteAt Reg.tcnt0 = 255#8
  · rw [tick_wrap h, State.byteAt_record_ne _ _ hf, State.byteAt_record_ne _ _ hc]
  · rw [tick_noWrap h, State.byteAt_record_ne _ _ hc]

/-- The notifications of a tick, and of n more ticks from where it leaves the two registers. -/
theorem tickEvents_tick (n : Nat) (s : State) :
    s.trace ++ tickEvents (n + 1) (s.byteAt Reg.tcnt0) (s.byteAt Reg.tifr0) =
      (tick s).trace ++ tickEvents n ((tick s).byteAt Reg.tcnt0) ((tick s).byteAt Reg.tifr0) := by
  rw [tick_tcnt0, tick_tifr0, tickEvents]
  by_cases h : s.byteAt Reg.tcnt0 = 255#8
  · simp [tick_wrap h, h, State.byteAt_record_ne _ _ (show Reg.tifr0 ≠ Reg.tcnt0 by decide), withBit, Bit.mask]
  · simp [tick_noWrap h, h]

theorem tick_trace (s : State) :
    (tick s).trace = s.trace ++ tickEvents 1 (s.byteAt Reg.tcnt0) (s.byteAt Reg.tifr0) := by
  rw [tickEvents_tick, tickEvents, List.append_nil]

/-- Settles O20: the two branches of the tick, each with its stores and its notifications. -/
theorem tickIncrementsAndWraps : Obligations.TickIncrementsAndWraps := by
  intro s
  refine ⟨fun h => ⟨?_, ?_, tick_sameBesidesMem s⟩, fun h => ⟨?_, ?_, tick_sameBesidesMem s⟩⟩
  · exact storesOnly_pair (by rw [tick_tcnt0, h]; rfl) (by rw [tick_tifr0, if_pos h]; rfl)
      fun _ => tick_byteAt_ne s
  · simp [tick_trace, tickEvents, h]
  · rw [tick_noWrap h]
    exact storesOnly_record _ _ _
  · simp [tick_trace, tickEvents, h]

/-! n ticks. -/

theorem toNat_add_one_wrap {c : Byte} (h : c = 255#8) : c.toNat = 255 ∧ (c + 1#8).toNat = 0 := by
  subst h
  decide

theorem toNat_add_one_noWrap {c : Byte} (h : c ≠ 255#8) : (c + 1#8).toNat = c.toNat + 1 := by
  bv_omega

theorem ticks_sameBesidesMem (n : Nat) (s : State) : s.SameBesidesMem (ticks n s) := by
  induction n generalizing s with
  | zero => exact sameBesidesMem_refl s
  | succ n ih => exact (tick_sameBesidesMem s).trans (ih (tick s))

theorem ticks_byteAt_ne (n : Nat) (s : State) {a : Nat} (hc : a ≠ Reg.tcnt0) (hf : a ≠ Reg.tifr0) :
    (ticks n s).byteAt a = s.byteAt a := by
  induction n generalizing s with
  | zero => rfl
  | succ n ih => exact (ih (tick s)).trans (tick_byteAt_ne s hc hf)

theorem ticks_tcnt0 (n : Nat) (s : State) :
    (ticks n s).byteAt Reg.tcnt0 = BitVec.ofNat 8 ((s.byteAt Reg.tcnt0).toNat + n) := by
  induction n generalizing s with
  | zero => simp [ticks]
  | succ n ih =>
    rw [ticks, ih, tick_tcnt0]
    bv_omega

theorem ticks_tifr0 (n : Nat) (s : State) :
    (ticks n s).byteAt Reg.tifr0 =
      if 256 ≤ (s.byteAt Reg.tcnt0).toNat + n then withBit (s.byteAt Reg.tifr0) Bit.tov else s.byteAt Reg.tifr0 := by
  induction n generalizing s with
  | zero => exact (if_neg (by omega)).symm
  | succ n ih =>
    rw [ticks, ih, tick_tcnt0, tick_tifr0]
    by_cases h : s.byteAt Reg.tcnt0 = 255#8
    · obtain ⟨hmax, hzero⟩ := toNat_add_one_wrap h
      rw [if_pos h, if_pos (show 256 ≤ (s.byteAt Reg.tcnt0).toNat + (n + 1) by omega)]
      simp [withBit, BitVec.or_assoc]
    · rw [if_neg h, toNat_add_one_noWrap h, Nat.add_right_comm, Nat.add_assoc]

theorem ticks_trace (n : Nat) (s : State) :
    (ticks n s).trace = s.trace ++ tickEvents n (s.byteAt Reg.tcnt0) (s.byteAt Reg.tifr0) := by
  induction n generalizing s with
  | zero => simp [ticks, tickEvents]
  | succ n ih => rw [ticks, ih, tickEvents_tick]

/-! How many notifications n ticks give. -/

theorem changesAt_tcnt0_tickEvents (n : Nat) (c f : Byte) : changesAt Reg.tcnt0 (tickEvents n c f) = n := by
  have hne : Reg.tifr0 ≠ Reg.tcnt0 := by decide
  induction n generalizing c f with
  | zero => rfl
  | succ n ih =>
    by_cases h : c = 255#8 <;> simp [tickEvents, h, changesAt, ih, hne, Nat.add_comm]

theorem changesAt_tifr0_tickEvents (n : Nat) (c f : Byte) :
    changesAt Reg.tifr0 (tickEvents n c f) = (c.toNat + n) / 256 := by
  have hne : Reg.tcnt0 ≠ Reg.tifr0 := by decide
  induction n generalizing c f with
  | zero => exact (Nat.div_eq_of_lt c.isLt).symm
  | succ n ih =>
    by_cases h : c = 255#8
    · simp only [tickEvents, h, if_true, changesAt, hne, if_false, ih, BitVec.toNat_ofNat]
      omega
    · simp only [tickEvents, h, changesAt, hne, if_false, ih, toNat_add_one_noWrap h]
      omega

/-- A tick notifies no offset but TCNT0 and TIFR0. -/
theorem length_tickEvents (n : Nat) (c f : Byte) :
    (tickEvents n c f).length =
      changesAt Reg.tcnt0 (tickEvents n c f) + changesAt Reg.tifr0 (tickEvents n c f) := by
  have hne : Reg.tcnt0 ≠ Reg.tifr0 := by decide
  induction n generalizing c f with
  | zero => rfl
  | succ n ih =>
    by_cases h : c = 255#8
    · simp only [tickEvents, h, if_true, List.length_cons, changesAt, hne, hne.symm, if_false, ih]
      omega
    · simp only [tickEvents, h, if_true, List.length_cons, changesAt, hne, if_false, ih]
      omega

/-! STEP and the branches of its rows. -/

theorem clockSelect_eq_mod (s : State) : clockSelect s = (s.byteAt Reg.tccr0b).toNat % 8 := by
  rw [clockSelect, BitVec.toNat_and]
  exact Nat.and_two_pow_sub_one_eq_mod _ 3

theorem timerStep_inert {s : State} (n : Nat) (h : divider (clockSelect s) = none) : timerStep n s = s := by
  rw [timerStep, h]

theorem timerStep_eq_ticks {s : State} {d : Nat} (n : Nat) (h : divider (clockSelect s) = some d) :
    timerStep n s = ticks ((s.acc + n) / d) { s with acc := (s.acc + n) % d } := by
  rw [timerStep, h]
  exact runTimer_eq d n s

/-- The branch of a row without a divider changes nothing, whether the row is selected or not. -/
theorem clockBranch_inert {cs : Nat} (n : Nat) (s : State) (h : divider cs = none) : clockBranch cs n s = s := by
  rw [clockBranch, h]
  exact ite_self s

theorem exec_step_eq_ticks {s : State} {cs d : Nat} (n : Nat) (hs : s.Running)
    (hcs : (s.byteAt Reg.tccr0b).toNat % 8 = cs) (hd : divider cs = some d) :
    exec (.step n) s = .next (ticks ((s.acc + n) / d) { s with acc := (s.acc + n) % d }) := by
  rw [← timerStep_eq_ticks n (by rw [clockSelect_eq_mod, hcs, hd])]
  exact ifRunning_next hs

/-- The branch of a row the clock select names does what STEP does. -/
theorem ifRunning_clockBranch_selected {s : State} {cs : Nat} (n : Nat)
    (hcs : (s.byteAt Reg.tccr0b).toNat % 8 = cs) : ifRunning s (clockBranch cs n s) = exec (.step n) s := by
  rw [← hcs, ← clockSelect_eq_mod, clockBranch_clockSelect]
  rfl

/-- The running rows of 30_encoding.md R77: their dividers. -/
theorem divider_runningRows : ∀ x ∈ [(1, 1), (2, 8), (3, 64), (4, 256), (5, 1024)], divider x.1 = some x.2 := by
  decide

/-- The running rows of 30_encoding.md R77: their dividers and their branches. -/
theorem exec_runningRows (n : Nat) (s : State) :
    ∀ x ∈ [(1, 1, Instr.tccr0bCs1 n), (2, 8, .tccr0bCs2 n), (3, 64, .tccr0bCs3 n), (4, 256, .tccr0bCs4 n),
      (5, 1024, .tccr0bCs5 n)],
      divider x.1 = some x.2.1 ∧ exec x.2.2 s = ifRunning s (clockBranch x.1 n s) := by
  simp only [List.forall_mem_cons]
  exact ⟨⟨rfl, rfl⟩, ⟨rfl, rfl⟩, ⟨rfl, rfl⟩, ⟨rfl, rfl⟩, ⟨rfl, rfl⟩, nofun⟩

/-- Settles O22: STEP and the selected branch are the same ticks, from the state that keeps the remainder. -/
theorem runningStepClosedForm : Obligations.RunningStepClosedForm := by
  intro s n hs x hx hcs i hi
  obtain ⟨hd, hrow⟩ := exec_runningRows n s x hx
  have hexec : exec i s = exec (.step n) s := by
    obtain rfl | rfl : i = .step n ∨ i = x.2.2 := by simpa using hi
    · rfl
    · exact hrow.trans (ifRunning_clockBranch_selected n hcs)
  obtain ⟨heeprom, hacc, hain, hdac, hfault, hanswers, hinbox⟩ :=
    ticks_sameBesidesMem ((s.acc + n) / x.2.1) { s with acc := (s.acc + n) % x.2.1 }
  exact ⟨_, hexec.trans (exec_step_eq_ticks n hs hcs hd), hacc,
    storesOnly_pair (ticks_tcnt0 _ _) (ticks_tifr0 _ _) fun _ => ticks_byteAt_ne _ _,
    ticks_trace _ _, heeprom, hain, hdac, hfault, hanswers, hinbox⟩

/-- Settles O23: the events are those of the quotient's ticks, counted by offset. -/
theorem tickEventCounts : Obligations.TickEventCounts := fun _ n hs x hx hcs =>
  ⟨_, _, exec_step_eq_ticks n hs hcs (divider_runningRows x hx), ticks_trace _ _, changesAt_tcnt0_tickEvents _ _ _,
    changesAt_tifr0_tickEvents _ _ _, length_tickEvents _ _ _⟩

/-- Settles O25: 256 dividers are 256 ticks with no remainder, and 256 ticks from 0 wrap once, at the last. -/
theorem overflowAfter256Dividers : Obligations.OverflowAfter256Dividers := by
  intro s hs x hx hcs hacc hcnt _
  have hd := divider_runningRows x hx
  have hpos : 0 < x.2 := (divider_range hd).1
  refine ⟨_, _, exec_step_eq_ticks _ hs hcs hd, ?_, ?_, ?_, ticks_trace _ _, ?_⟩
  all_goals rw [hacc, Nat.zero_add, Nat.mul_div_cancel 256 hpos]
  · simp [ticks_tcnt0, hcnt]
  · simp [ticks_tifr0, hcnt, bitOf_withBit _ _ (show Bit.tov < 8 by decide)]
  · obtain ⟨-, h, -⟩ := ticks_sameBesidesMem 256 { s with acc := 256 * x.2 % x.2 }
    exact h.trans (Nat.mul_mod_left 256 x.2)
  · simp [changesAt_tifr0_tickEvents, hcnt]

/-! Two STEPs. -/

/-- Ticks neither read nor write the accumulator. -/
theorem ticks_with_acc (n x : Nat) (s : State) : ticks n { s with acc := x } = { ticks n s with acc := x } := by
  induction n generalizing s with
  | zero => rfl
  | succ n ih =>
    have one : tick { s with acc := x } = { tick s with acc := x } := by
      by_cases h : s.byteAt Reg.tcnt0 = 255#8
      · rw [tick_wrap h, tick_wrap (s := { s with acc := x }) h]
        rfl
      · rw [tick_noWrap h, tick_noWrap (s := { s with acc := x }) h]
        rfl
    rw [ticks, one, ih, ticks]

/-- Neither register a tick writes is TCCR0B. -/
theorem clockSelect_ticks (n : Nat) (s : State) : clockSelect (ticks n s) = clockSelect s := by
  rw [clockSelect, ticks_byteAt_ne n s (by decide) (by decide), clockSelect]

/-- The quotient of a sum taken in two parts: the remainder of the first is carried into the second. -/
theorem div_add_mod_add_div {d : Nat} (hd : 0 < d) (a b : Nat) : a / d + (a % d + b) / d = (a + b) / d := by
  rw [← Nat.mul_add_div hd, ← Nat.add_assoc, Nat.div_add_mod]

theorem timerStep_timerStep (n m : Nat) (s : State) : timerStep m (timerStep n s) = timerStep (n + m) s := by
  cases hd : divider (clockSelect s) with
  | none => rw [timerStep_inert n hd, timerStep_inert m hd, timerStep_inert (n + m) hd]
  | some d =>
    have hpos : 0 < d := (divider_range hd).1
    have hd' : divider (clockSelect (ticks ((s.acc + n) / d) { s with acc := (s.acc + n) % d })) = some d :=
      (congrArg divider (clockSelect_ticks _ _)).trans hd
    rw [timerStep_eq_ticks n hd, timerStep_eq_ticks m hd', timerStep_eq_ticks (n + m) hd]
    simp only [ticks_with_acc, Nat.mod_add_mod, ← ticks_add, div_add_mod_add_div hpos, Nat.add_assoc]

theorem timerStep_running {s : State} (n : Nat) (hs : s.Running) : (timerStep n s).Running := by
  cases hd : divider (clockSelect s) with
  | none => rwa [timerStep_inert n hd]
  | some d =>
    obtain ⟨-, -, -, -, hfault, -⟩ := ticks_sameBesidesMem ((s.acc + n) / d) { s with acc := (s.acc + n) % d }
    rw [timerStep_eq_ticks n hd]
    exact hfault.trans hs

/-- Settles O24: STEP raises no fault, so the second STEP runs, and the ticks of both add up. -/
theorem stepsAddUp : Obligations.StepsAddUp := by
  intro s t n m h
  obtain ⟨hs, rfl⟩ := ifRunning_eq_next h
  calc exec (.step m) (timerStep n s)
      _ = .next (timerStep m (timerStep n s)) := ifRunning_next (timerStep_running n hs)
      _ = .next (timerStep (n + m) s) := by rw [timerStep_timerStep]
      _ = exec (.step (n + m)) s := (ifRunning_next hs).symm

/-- Settles O21: these clock selects have no divider. -/
theorem inertClockSelects : Obligations.InertClockSelects := by
  intro s n hs
  have inert : ∀ cs ∈ [0, 6, 7], divider cs = none := by decide
  constructor
  · intro hcs
    rw [← clockSelect_eq_mod] at hcs
    exact (ifRunning_next hs).trans (congrArg _ (timerStep_inert n (inert _ hcs)))
  · have branch : ∀ cs ∈ [0, 6, 7], ifRunning s (clockBranch cs n s) = .next s := fun cs hcs =>
      (ifRunning_next hs).trans (congrArg _ (clockBranch_inert n s (inert cs hcs)))
    simp only [List.forall_mem_cons]
    exact ⟨branch 0 (by decide), branch 6 (by decide), branch 7 (by decide), nofun⟩

end Sys2Proof.Machine
end

section
/-! SUPPORT. The statements about the EEPROM (42_eeprom.md R131 to R138): what one update leaves, said once, and every
WRITE of EECR and every branch as an update of the state its own stores leave. -/

namespace Sys2Proof.Machine

/-! EECR after an update, and the notifications of one. -/

theorem withoutBit_eq_self {v : Byte} {i : Nat} (h : bitOf v i = false) : withoutBit v i = v := by
  refine BitVec.eq_of_getLsbD_eq fun j hj => ?_
  have hbit := bitOf_withoutBit v i hj
  by_cases hij : i = j
  · subst hij
    rw [h, Bool.false_and] at hbit
    exact hbit.trans h.symm
  · simpa [hij, bitOf] using hbit

/-- EERE is cleared first, then the write command. -/
theorem eecrAfter_eq (v : Byte) :
    eecrAfter v =
      if bitOf v Bit.eewe && bitOf v Bit.eemwe then
        withoutBit v Bit.eere &&& ~~~(Bit.mask Bit.eewe ||| Bit.mask Bit.eemwe)
      else withoutBit (withoutBit v Bit.eere) Bit.eewe := by
  simp only [eecrAfter, withoutBit, BitVec.not_or, BitVec.and_assoc]

theorem eecrAfter_noWrite {v : Byte} (hw : bitOf v Bit.eewe = false) : eecrAfter v = withoutBit v Bit.eere := by
  have hw' : bitOf (withoutBit v Bit.eere) Bit.eewe = false := by
    rw [bitOf_withoutBit _ _ (by decide), hw, Bool.false_and]
  rw [eecrAfter_eq, hw, Bool.false_and, if_neg Bool.false_ne_true, withoutBit_eq_self hw']

theorem eecrAfter_dropped {v : Byte} (hr : bitOf v Bit.eere = false) (hg : bitOf v Bit.eemwe = false) :
    eecrAfter v = withoutBit v Bit.eewe := by
  rw [eecrAfter_eq, hg, Bool.and_false, if_neg Bool.false_ne_true, withoutBit_eq_self hr]

theorem eecrAfter_write {v : Byte} (hr : bitOf v Bit.eere = false) (hw : bitOf v Bit.eewe = true)
    (hg : bitOf v Bit.eemwe = true) :
    eecrAfter v = v &&& ~~~(Bit.mask Bit.eewe ||| Bit.mask Bit.eemwe) := by
  rw [eecrAfter_eq, hw, hg, withoutBit_eq_self hr]
  rfl

theorem bitOf_eecrAfter_eere (v : Byte) : bitOf (eecrAfter v) Bit.eere = false := by
  rw [eecrAfter_eq]
  split
  · simp [bitOf_without2 _ _ _ (show Bit.eere < 8 by decide), bitOf_withoutBit_same _ (show Bit.eere < 8 by decide)]
  · simp [bitOf_withoutBit _ _ (show Bit.eere < 8 by decide)]

theorem bitOf_withoutEere (v : Byte) :
    bitOf (withoutBit v Bit.eere) Bit.eere = false ∧
      bitOf (withoutBit v Bit.eere) Bit.eewe = bitOf v Bit.eewe ∧
      bitOf (withoutBit v Bit.eere) Bit.eemwe = bitOf v Bit.eemwe := by
  refine ⟨bitOf_withoutBit_same v (by decide), ?_, ?_⟩ <;> rw [bitOf_withoutBit _ _ (by decide)] <;>
    exact Bool.and_true _

theorem eecrAfter_withoutEere (v : Byte) : eecrAfter (withoutBit v Bit.eere) = eecrAfter v := by
  obtain ⟨hr, hw, hg⟩ := bitOf_withoutEere v
  rw [eecrAfter_eq, eecrAfter_eq v, hw, hg, withoutBit_eq_self hr]

theorem eecrEvents_noRead {v : Byte} (d x : Byte) (hr : bitOf v Bit.eere = false) :
    eecrEvents v d x = if bitOf v Bit.eewe then [.memChange Reg.eecr v (eecrAfter v)] else [] := by
  cases hw : bitOf v Bit.eewe with
  | false => simp [eecrEvents, hr, hw]
  | true =>
    cases hg : bitOf v Bit.eemwe with
    | false => simp [eecrEvents, hr, hw, hg, eecrAfter_dropped hr hg, withoutBit]
    | true => simp [eecrEvents, hr, hw, hg, eecrAfter_write hr hw hg]

/-- The read branch's two notifications, then those of the update its write of EECR runs. -/
theorem eecrEvents_read {v : Byte} (d x d' x' : Byte) (hr : bitOf v Bit.eere = true) :
    eecrEvents v d x =
      .memChange Reg.eedr d x :: .memChange Reg.eecr v (withoutBit v Bit.eere) ::
        eecrEvents (withoutBit v Bit.eere) d' x' := by
  obtain ⟨hr', hw, hg⟩ := bitOf_withoutEere v
  rw [eecrEvents_noRead d' x' hr', eecrAfter_withoutEere, eecrAfter_eq, hw]
  cases hw' : bitOf v Bit.eewe <;> cases hg' : bitOf v Bit.eemwe <;> simp [eecrEvents, hr, hw', hg', withoutBit]

/-! Reading what an update finds once EECR is stored. -/

@[simp] theorem record_eecr_eedr (s : State) (v : Byte) : (s.record Reg.eecr v).byteAt Reg.eedr = s.byteAt Reg.eedr :=
  State.byteAt_record_ne s v (by decide)

@[simp] theorem eepromAddr_record_eecr (s : State) (v : Byte) : eepromAddr (s.record Reg.eecr v) = eepromAddr s :=
  eepromAddr_record s v (by decide) (by decide)

@[simp] theorem eepromAddr_record_eedr (s : State) (v : Byte) : eepromAddr (s.record Reg.eedr v) = eepromAddr s :=
  eepromAddr_record s v (by decide) (by decide)

@[simp] theorem eepromAddr_eeStore (s : State) (a : Nat) (v : Byte) : eepromAddr (s.eeStore a v) = eepromAddr s := rfl

/-! One update. -/

/-- What an EEPROM update of s leaves in t (42_eeprom.md R132 to R136): the write command stores EEDR, but where the
read branch ran first it stores back the byte just read, and E stays as it was. -/
structure State.EepromUpdated (s t : State) : Prop where
  eeByteAt : ∀ b, t.eeByteAt b =
    if b = eepromAddr s ∧ bitOf (s.byteAt Reg.eecr) Bit.eewe = true ∧ bitOf (s.byteAt Reg.eecr) Bit.eemwe = true ∧
        bitOf (s.byteAt Reg.eecr) Bit.eere = false
    then s.byteAt Reg.eedr else s.eeByteAt b
  eeprom : (bitOf (s.byteAt Reg.eecr) Bit.eewe && bitOf (s.byteAt Reg.eecr) Bit.eemwe) = false → t.eeprom = s.eeprom
  eedr : t.byteAt Reg.eedr =
    if bitOf (s.byteAt Reg.eecr) Bit.eere then s.eeByteAt (eepromAddr s) else s.byteAt Reg.eedr
  eecr : t.byteAt Reg.eecr = eecrAfter (s.byteAt Reg.eecr)
  other : ∀ a, a ≠ Reg.eedr → a ≠ Reg.eecr → t.byteAt a = s.byteAt a
  trace : t.trace =
    s.trace ++ eecrEvents (s.byteAt Reg.eecr) (s.byteAt Reg.eedr) (s.eeByteAt (eepromAddr s))
  frame : t.acc = s.acc ∧ t.ain = s.ain ∧ t.dac = s.dac ∧ t.fault = s.fault ∧ t.answers = s.answers ∧
    t.inbox = s.inbox

/-- Without EERE an update is at most a store in E and a store of EECR. -/
theorem eepromUpdate_noRead (k : Nat) {s : State} (hr : bitOf (s.byteAt Reg.eecr) Bit.eere = false) :
    eepromUpdate (memWriteAt k) s =
      if bitOf (s.byteAt Reg.eecr) Bit.eewe then
        (if bitOf (s.byteAt Reg.eecr) Bit.eemwe then s.eeStore (eepromAddr s) (s.byteAt Reg.eedr) else s).record
          Reg.eecr (eecrAfter (s.byteAt Reg.eecr))
      else s := by
  cases hw : bitOf (s.byteAt Reg.eecr) Bit.eewe with
  | false => simp [eepromUpdate, hr, hw]
  | true =>
    cases hg : bitOf (s.byteAt Reg.eecr) Bit.eemwe with
    | false => simp [eepromUpdate, hr, hw, hg, eepromWriteDropped_memWriteAt k s hr, eecrAfter_dropped hr hg]
    | true => simp [eepromUpdate, hr, hw, hg, eepromWrite_memWriteAt k _ s hr, eecrAfter_write hr hw hg]

/-- With EERE an update is the store of EEDR, the store of EECR without EERE, and the update this one runs one level
down: the write branch then finds EEWE clear. -/
theorem eepromUpdate_readThen (k : Nat) {s : State} (hr : bitOf (s.byteAt Reg.eecr) Bit.eere = true) :
    eepromUpdate (memWriteAt (k + 1)) s =
      eepromUpdate (memWriteAt k)
        ((s.record Reg.eedr (s.eeByteAt (eepromAddr s))).record Reg.eecr
          (withoutBit (s.byteAt Reg.eecr) Bit.eere)) := by
  have hread : eepromRead (memWriteAt (k + 1)) (eepromAddr s) s =
      memWriteAt (k + 1) Reg.eecr (withoutBit (s.byteAt Reg.eecr) Bit.eere)
        (s.record Reg.eedr (s.eeByteAt (eepromAddr s))) := by
    rw [eepromRead, clrb, memWriteAt_plain (a := Reg.eedr) _ _ _ (by decide) (by decide),
      State.byteAt_record_ne _ _ (by decide)]
  have hw : bitOf ((eepromRead (memWriteAt (k + 1)) (eepromAddr s) s).byteAt Reg.eecr) Bit.eewe = false := by
    rw [hread, memWriteAt_eecr_clears _ _ _ (bitOf_withoutBit_same _ (by decide))]
  calc eepromUpdate (memWriteAt (k + 1)) s
      _ = eepromRead (memWriteAt (k + 1)) (eepromAddr s) s := by simp [eepromUpdate, hr, hw]
      _ = _ := by rw [hread, memWriteAt_eecr]

theorem eepromUpdated_noRead (k : Nat) {s : State} (hr : bitOf (s.byteAt Reg.eecr) Bit.eere = false) :
    s.EepromUpdated (eepromUpdate (memWriteAt k) s) := by
  rw [eepromUpdate_noRead k hr]
  cases hw : bitOf (s.byteAt Reg.eecr) Bit.eewe with
  | false =>
    exact {
      eeByteAt := fun b => by simp [hw]
      eeprom := fun _ => rfl
      eedr := by simp [hr]
      eecr := by rw [eecrAfter_noWrite hw, withoutBit_eq_self hr]; rfl
      other := fun _ _ _ => rfl
      trace := by simp [eecrEvents_noRead _ _ hr, hw]
      frame := ⟨rfl, rfl, rfl, rfl, rfl, rfl⟩ }
  | true =>
    cases hg : bitOf (s.byteAt Reg.eecr) Bit.eemwe <;> exact {
      eeByteAt := fun b => by simp [hr, hw, hg, State.eeByteAt_eeStore]
      eeprom := by simp [hw, hg]
      eedr := by simp [hr]
      eecr := State.byteAt_record_same _ _ _
      other := fun a _ ha => State.byteAt_record_ne _ _ ha
      trace := by simp [eecrEvents_noRead _ _ hr, hw]
      frame := ⟨rfl, rfl, rfl, rfl, rfl, rfl⟩ }

/-- With EERE, an update leaves what the one its write of EECR runs leaves. -/
theorem State.EepromUpdated.of_read {s t : State} (hr : bitOf (s.byteAt Reg.eecr) Bit.eere = true)
    (h : ((s.record Reg.eedr (s.eeByteAt (eepromAddr s))).record Reg.eecr
      (withoutBit (s.byteAt Reg.eecr) Bit.eere)).EepromUpdated t) : s.EepromUpdated t := by
  obtain ⟨hr', hw, hg⟩ := bitOf_withoutEere (s.byteAt Reg.eecr)
  obtain ⟨heeByteAt, heeprom, heedr, heecr, hother, htrace, hframe⟩ := h
  simp only [State.byteAt_record_same, record_eecr_eedr, eepromAddr_record_eecr, eepromAddr_record_eedr,
    State.record_eeByteAt] at heeByteAt heeprom heedr heecr htrace
  exact {
    eeByteAt := fun b => by
      refine (heeByteAt b).trans (Eq.trans ?_ (if_neg (by simp [hr])).symm)
      split
      case isTrue hb => rw [hb.1]
      case isFalse => rfl
    eeprom := by rwa [hw, hg] at heeprom
    eedr := by rw [heedr, hr', hr]; rfl
    eecr := by rw [heecr, eecrAfter_withoutEere]
    other := fun a hd hc => by rw [hother a hd hc, State.byteAt_record_ne _ _ hc, State.byteAt_record_ne _ _ hd]
    trace := by
      rw [htrace, eecrEvents_read _ _ (s.eeByteAt (eepromAddr s)) (s.eeByteAt (eepromAddr s)) hr]
      simp [State.byteAt_record_ne _ _ (show Reg.eecr ≠ Reg.eedr by decide)]
    frame := hframe }

theorem eepromUpdate_updated (k : Nat) (s : State) : s.EepromUpdated (eepromUpdate (memWriteAt (k + 1)) s) := by
  cases hr : bitOf (s.byteAt Reg.eecr) Bit.eere with
  | false => exact eepromUpdated_noRead _ hr
  | true =>
    rw [eepromUpdate_readThen k hr]
    exact .of_read hr (eepromUpdated_noRead k (by simp [bitOf_withoutBit_same _ (show Bit.eere < 8 by decide)]))

/-! A WRITE of EECR. -/

/-- A write of EECR is its store and one update. -/
theorem memWrite_eecr_updated (v : Byte) (s : State) : (s.record Reg.eecr v).EepromUpdated (memWrite Reg.eecr v s) := by
  rw [memWrite, maxNesting, memWriteAt_eecr]
  exact eepromUpdate_updated 1 _

/-- What a write of EECR stores in M. -/
theorem memWrite_eecr_storesOnly (v : Byte) (s : State) :
    s.StoresOnly (memWrite Reg.eecr v s)
      [(Reg.eedr, if bitOf v Bit.eere then s.eeByteAt (eepromAddr s) else s.byteAt Reg.eedr),
        (Reg.eecr, eecrAfter v)] := by
  have h := memWrite_eecr_updated v s
  refine storesOnly_pair (by simpa using h.eedr) (by simpa using h.eecr) fun a hd hc => ?_
  rw [h.other a hd hc, State.byteAt_record_ne _ _ hc]

/-- Settles O26: the WRITE stores EECR, and the update finds the byte stored. -/
theorem writeEecrCommandTable : Obligations.WriteEecrCommandTable := by
  intro s v hs
  have h := memWrite_eecr_updated v s
  exact ⟨_, ifRunning_next hs, fun b => by simpa using h.eeByteAt b, memWrite_eecr_storesOnly v s,
    by simpa using h.trace, h.frame⟩

/-- Settles O29: with EERE clear the update is the dropped or the performed write alone. -/
theorem bareWriteEnableIsDropped : Obligations.BareWriteEnableIsDropped := by
  intro s v hs hw
  have h := memWrite_eecr_updated v s
  have heecr : (memWrite Reg.eecr v s).byteAt Reg.eecr = eecrAfter v := by simpa using h.eecr
  refine ⟨_, ifRunning_next hs, fun hg b => ?_, fun hg hr => ?_, fun hg hr => ⟨?_, ?_⟩, fun _ => ?_⟩
  · simpa [hg] using h.eeByteAt b
  · exact heecr.trans (eecrAfter_dropped hr hg)
  · simpa [hw, hg, hr] using h.eeByteAt (eepromAddr s)
  · exact heecr.trans (eecrAfter_write hr hw hg)
  · rw [heecr, bitOf_eecrAfter_eere]

/-- Settles O30: with EERE and EEWE clear the WRITE is its store. -/
theorem gateStaysArmed : Obligations.GateStaysArmed := by
  refine fun s v hs => ⟨ifRunning_next hs, fun _ hr hw => ?_⟩
  have hwrite : exec (.writeEecr v) s = .next (s.record Reg.eecr v) :=
    (ifRunning_next hs).trans (congrArg _ (memWriteAt_eecr_idle _ v s hr hw))
  exact ⟨_, hwrite, State.byteAt_record_same _ _ _, rfl⟩

/-! The branches as instructions of their own. -/

/-- Settles O27: where EERE is set, the branch is the whole update. -/
theorem readBranchCopiesTheByte : Obligations.ReadBranchCopiesTheByte := by
  intro s hs hr
  have hrun : exec .eecrRead s = .next (eepromUpdate memWrite s) := by
    rw [eepromUpdate_read hr]
    exact (ifRunning_next hs).trans (congrArg _ (if_pos hr))
  obtain ⟨heeByteAt, -, heedr, heecr, hother, htrace, hframe⟩ := eepromUpdate_updated 2 s
  rw [if_pos hr] at heedr
  exact ⟨_, hrun, fun b => (heeByteAt b).trans (if_neg (by simp [hr])), storesOnly_pair heedr heecr hother,
    fun hw => heecr.trans (eecrAfter_noWrite hw), htrace, hframe⟩

/-- The nested update of a branch's write of EECR, whose byte has EEWE clear: with EERE set it is the read branch, else
nothing. -/
theorem memWrite_eecr_noWrite {v : Byte} (s : State) (hw : bitOf v Bit.eewe = false) :
    s.SameBesidesMem (memWrite Reg.eecr v s) ∧
      s.StoresOnly (memWrite Reg.eecr v s)
        (if bitOf v Bit.eere then [(Reg.eedr, s.eeByteAt (eepromAddr s)), (Reg.eecr, withoutBit v Bit.eere)]
          else [(Reg.eecr, v)]) ∧
      (memWrite Reg.eecr v s).trace = s.trace ++ .memChange Reg.eecr (s.byteAt Reg.eecr) v ::
        (if bitOf v Bit.eere then
          [.memChange Reg.eedr (s.byteAt Reg.eedr) (s.eeByteAt (eepromAddr s)),
            .memChange Reg.eecr v (withoutBit v Bit.eere)] else []) := by
  cases hr : bitOf v Bit.eere with
  | false =>
    rw [memWrite, memWriteAt_eecr_idle _ v s hr hw]
    exact ⟨sameBesidesMem_record _ _ _, storesOnly_record _ _ _, rfl⟩
  | true =>
    have h := memWrite_eecr_updated v s
    have hstores := memWrite_eecr_storesOnly v s
    rw [eecrAfter_noWrite hw, hr] at hstores
    refine ⟨⟨h.eeprom (by simp [hw]), h.frame⟩, hstores, ?_⟩
    simpa [eecrEvents, hr, hw, withoutBit] using h.trace

/-- A cell that lists the byte as it was says nothing. -/
theorem storesOnly_of_cons_same {s t : State} {a : Nat} {cells : List Host.Cell}
    (h : s.StoresOnly t ((a, s.byteAt a) :: cells)) (hcells : findCell cells a = none) : s.StoresOnly t cells := by
  intro b
  rw [h b, findCell_cons]
  split
  case isTrue hab => rw [← hab, hcells]; rfl
  case isFalse => rfl

/-- Settles O28: each branch's write of EECR finds EEWE clear; a gated write has stored EEDR in E before, which is what
a nested read then brings back. -/
theorem writeBranchNeedsTheGate : Obligations.WriteBranchNeedsTheGate := by
  rintro s v d hs rfl rfl hw
  refine ⟨fun hg => ?_, fun hg => ?_⟩
  · have hrun : exec .eecrWrite s = .next (eepromWrite memWrite (eepromAddr s) s) :=
      (ifRunning_next hs).trans (congrArg _ (if_pos (by rw [hw, hg]; rfl)))
    have hr : bitOf (s.byteAt Reg.eecr &&& ~~~(Bit.mask Bit.eewe ||| Bit.mask Bit.eemwe)) Bit.eere =
        bitOf (s.byteAt Reg.eecr) Bit.eere := by
      rw [bitOf_without2 _ _ _ (by decide)]
      exact (Bool.and_true _).trans (Bool.and_true _)
    have hw' : bitOf (s.byteAt Reg.eecr &&& ~~~(Bit.mask Bit.eewe ||| Bit.mask Bit.eemwe)) Bit.eewe = false := by
      rw [bitOf_without2 _ _ _ (by decide)]
      simp
    obtain ⟨⟨heeprom, hframe⟩, hstores, htrace⟩ :=
      memWrite_eecr_noWrite (s.eeStore (eepromAddr s) (s.byteAt Reg.eedr)) hw'
    rw [hr, eepromAddr_eeStore, State.eeByteAt_eeStore, if_pos rfl] at hstores htrace
    refine ⟨_, _, hrun, rfl, fun b => ?_, ?_, htrace, hframe⟩
    · exact (congrArg (eeRead · b) heeprom).trans (State.eeByteAt_eeStore s _ b _)
    · cases hre : bitOf (s.byteAt Reg.eecr) Bit.eere <;> rw [hre] at hstores
      · exact hstores
      · exact storesOnly_of_cons_same hstores rfl
  · have hrun : exec .eecrWriteDropped s = .next (memWrite Reg.eecr (withoutBit (s.byteAt Reg.eecr) Bit.eewe) s) :=
      (ifRunning_next hs).trans (congrArg _ (if_pos (by rw [hw, hg]; rfl)))
    have hr : bitOf (withoutBit (s.byteAt Reg.eecr) Bit.eewe) Bit.eere = bitOf (s.byteAt Reg.eecr) Bit.eere := by
      rw [bitOf_withoutBit _ _ (by decide)]
      exact Bool.and_true _
    obtain ⟨hframe, hstores, htrace⟩ :=
      memWrite_eecr_noWrite s (bitOf_withoutBit_same (s.byteAt Reg.eecr) (show Bit.eewe < 8 by decide))
    rw [hr] at hstores htrace
    exact ⟨_, _, _, hrun, rfl, rfl, hstores, htrace, hframe⟩

/-! The address. -/

/-- The mask of a power of two less one is the remainder, and EEARL fills the byte below EEARH. -/
theorem eepromAddr_eq_mod (s : State) :
    eepromAddr s = ((s.byteAt Reg.eearh).toNat * 256 + (s.byteAt Reg.eearl).toNat) % Param.eeSize := by
  have hlow := (s.byteAt Reg.eearl).isLt
  have hhigh := (s.byteAt Reg.eearh).isLt
  have hlow16 : ((s.byteAt Reg.eearl).zeroExtend 16).toNat = (s.byteAt Reg.eearl).toNat :=
    BitVec.toNat_setWidth_of_le (by decide)
  have hhigh16 : ((s.byteAt Reg.eearh).zeroExtend 16 <<< 8).toNat = (s.byteAt Reg.eearh).toNat <<< 8 := by
    rw [BitVec.toNat_shiftLeft, BitVec.zeroExtend, BitVec.toNat_setWidth_of_le (by decide), Nat.shiftLeft_eq]
    exact Nat.mod_eq_of_lt (by omega)
  calc eepromAddr s
      _ = ((s.byteAt Reg.eearh).toNat <<< 8 ||| (s.byteAt Reg.eearl).toNat) &&& (2 ^ 10 - 1) := by
        rw [eepromAddr, BitVec.toNat_and, BitVec.toNat_or, hlow16, hhigh16]
        rfl
      _ = ((s.byteAt Reg.eearh).toNat <<< 8 ||| (s.byteAt Reg.eearl).toNat) % 2 ^ 10 :=
        Nat.and_two_pow_sub_one_eq_mod _ _
      _ = ((s.byteAt Reg.eearh).toNat * 256 + (s.byteAt Reg.eearl).toNat) % Param.eeSize := by
        rw [← Nat.shiftLeft_add_eq_or_of_lt hlow, Nat.shiftLeft_eq]
        rfl

theorem eeSizeOk_eq_false {size : Nat} (h : ∀ k, size ≠ 2 ^ k) : eeSizeOk size = false := by
  simp [eeSizeOk, h]

/-- Settles O31. -/
theorem eepromAddressWraps : Obligations.EepromAddressWraps := by
  refine ⟨fun s => ⟨eepromAddr_eq_mod s, eepromAddr_lt s⟩, fun size pre h => ?_⟩
  simp [eepromInit, eeSizeOk_eq_false h]

/-! A write, then a read. -/

/-- An update stores in neither half of EEAR. -/
theorem State.EepromUpdated.eepromAddr_eq {s t : State} (h : s.EepromUpdated t) : eepromAddr t = eepromAddr s := by
  rw [eepromAddr, eepromAddr, h.other Reg.eearl (by decide) (by decide), h.other Reg.eearh (by decide) (by decide)]

/-- Settles O32: neither the updates nor the WRITE of EEDR changes the address, and the read command runs first. -/
theorem eepromWriteThenRead : Obligations.EepromWriteThenRead := by
  intro s s1 s2 s3 v w d hw hg hr hread h1 h2 h3
  obtain ⟨-, rfl⟩ := ifRunning_eq_next h1
  obtain ⟨-, rfl⟩ := ifRunning_eq_next h2
  obtain ⟨-, rfl⟩ := ifRunning_eq_next h3
  have hplain : memWrite Reg.eedr d (memWrite Reg.eecr v s) = (memWrite Reg.eecr v s).record Reg.eedr d :=
    memWriteAt_plain _ _ _ (by decide) (by decide)
  have hwritten := memWrite_eecr_updated v s
  have haddr : eepromAddr (memWrite Reg.eecr v s) = eepromAddr s := by simpa using hwritten.eepromAddr_eq
  have hstored : (memWrite Reg.eecr v s).eeByteAt (eepromAddr s) = s.byteAt Reg.eedr := by
    simpa [hw, hg, hr] using hwritten.eeByteAt (eepromAddr s)
  rw [hplain]
  simpa [hread, haddr, hstored] using (memWrite_eecr_updated w ((memWrite Reg.eecr v s).record Reg.eedr d)).eedr

end Sys2Proof.Machine
end

section
/-! SUPPORT. The statements about the ADC (43_adc.md R150 to R156): the quantizer as the nearest integer of an exact
rational, and a conversion as the plain stores it makes. -/

namespace Sys2Proof.Machine

/-! Rounding. -/

/-- k is x rounded to the nearest integer, a tie going to the even one (43_adc.md R151). -/
structure RoundsHalfEven (x : Rat) (k : Nat) : Prop where
  near : |(k : Rat) - x| ≤ 1 / 2
  even_of_tie : ∀ m : Nat, x = m + 1 / 2 → k % 2 = 0

/-- Two roundings could cross only at a tie between neighbours, and there both would be even. -/
theorem RoundsHalfEven.mono {x y : Rat} {k l : Nat} (hk : RoundsHalfEven x k) (hl : RoundsHalfEven y l)
    (hxy : x ≤ y) : k ≤ l := by
  by_contra hlt
  obtain ⟨-, hkx⟩ := abs_le.mp hk.near
  obtain ⟨hly, -⟩ := abs_le.mp hl.near
  have hcast : (l : Rat) + 1 ≤ k := by exact_mod_cast Nat.lt_of_not_le hlt
  have hkl : k = l + 1 := by
    have : (k : Rat) ≤ l + 1 := by linarith
    exact_mod_cast le_antisymm this hcast
  have hkeven := hk.even_of_tie l (by linarith)
  have hleven := hl.even_of_tie l (by linarith)
  omega

/-- The fraction f is no half, so k + f is no tie. -/
theorem add_ne_add_half {k : Nat} {f : Rat} (h0 : 0 ≤ f) (h1 : f < 1) (hf : f ≠ 1 / 2) (m : Nat) :
    (k : Rat) + f ≠ m + 1 / 2 := by
  intro h
  have hkm : k = m := by
    have hlt : (k : Rat) < m + 1 := by linarith
    have hgt : (m : Rat) < k + 1 := by linarith
    have hlt' : k < m + 1 := by exact_mod_cast hlt
    have hgt' : m < k + 1 := by exact_mod_cast hgt
    omega
  subst hkm
  exact hf (by linarith)

/-- n / d lies the fraction (n % d) / d above the integer quotient, and twice the remainder against d tells which
neighbour is nearer. -/
theorem roundHalfEven_rounds (n : Nat) {d : Nat} (hd : 0 < d) :
    RoundsHalfEven ((n : Rat) / d) (roundHalfEven n d) := by
  have hd' : (0 : Rat) < d := by exact_mod_cast hd
  obtain ⟨f, hf⟩ : ∃ f : Rat, f = (n % d : Nat) / d := ⟨_, rfl⟩
  have hx : (n : Rat) / d = (n / d : Nat) + f := by
    rw [hf, ← Nat.floor_div_eq_div (K := Rat), natCast_floor_eq_intCast_floor (by positivity),
      ← Int.fract_div_natCast_eq_div_natCast_mod, Int.floor_add_fract]
  have h0 : 0 ≤ f := by rw [hf]; positivity
  have h1 : f < 1 := by rw [hf, div_lt_one hd']; exact_mod_cast Nat.mod_lt n hd
  have hbelow : 2 * (n % d) < d ↔ f < 1 / 2 := by
    rw [hf, div_lt_div_iff₀ hd' two_pos, one_mul, mul_comm]; exact_mod_cast Iff.rfl
  have habove : d < 2 * (n % d) ↔ 1 / 2 < f := by
    rw [hf, div_lt_div_iff₀ two_pos hd', one_mul, mul_comm]; exact_mod_cast Iff.rfl
  rw [hx]
  simp only [roundHalfEven, hbelow, habove]
  split_ifs with hlt hgt heven
  · exact ⟨abs_le.mpr ⟨by linarith, by linarith⟩, fun m h => absurd h (add_ne_add_half h0 h1 hlt.ne m)⟩
  · exact ⟨abs_le.mpr (by push_cast; constructor <;> linarith), fun m h => absurd h (add_ne_add_half h0 h1 hgt.ne' m)⟩
  · exact ⟨abs_le.mpr ⟨by linarith, by linarith⟩, fun _ _ => heven⟩
  · exact ⟨abs_le.mpr (by push_cast; constructor <;> linarith), fun _ _ => by omega⟩

/-! The quantizer. -/

theorem clampInput_eq (v : Rat) : clampInput v = min (max v 0) 5 := by
  unfold clampInput
  split
  · rw [max_eq_right (by linarith)]; norm_num
  · rw [max_eq_left (by linarith)]
    split
    · rw [min_eq_right (by linarith)]
    · rw [min_eq_left (by linarith)]

theorem adcQuant_rounds (v : Rat) : RoundsHalfEven (min (max v 0) 5 * 1023 / 5) (adcQuant v) := by
  rw [← clampInput_eq]
  have hnum : ((clampInput v).num.toNat : Rat) = (clampInput v).num := by
    have hclamp : 0 ≤ clampInput v := by simp [clampInput_eq]
    exact_mod_cast Int.toNat_of_nonneg (Rat.num_nonneg.mpr hclamp)
  have hx : clampInput v * 1023 / 5 =
      ((1023 * (clampInput v).num.toNat : Nat) : Rat) / (5 * (clampInput v).den : Nat) := by
    push_cast
    rw [hnum, mul_div_mul_comm, Rat.num_div_den]
    ring
  rw [hx]
  exact roundHalfEven_rounds _ (Nat.mul_pos (by decide) (clampInput v).pos)

theorem adcQuant_mono {v w : Rat} (h : v ≤ w) : adcQuant v ≤ adcQuant w :=
  (adcQuant_rounds v).mono (adcQuant_rounds w) (by gcongr)

theorem adcQuant_of_nonpos {v : Rat} (h : v ≤ 0) : adcQuant v = 0 := by
  have hclamp : clampInput v = 0 := by rw [clampInput_eq, max_eq_right h]; norm_num
  rw [adcQuant, hclamp]
  rfl

theorem adcQuant_of_ge_five {v : Rat} (h : 5 ≤ v) : adcQuant v = 1023 := by
  have hclamp : clampInput v = 5 := by rw [clampInput_eq, min_eq_right (le_max_of_le_left h)]
  rw [adcQuant, hclamp]
  rfl

theorem adcQuant_le (v : Rat) : adcQuant v ≤ 1023 :=
  (adcQuant_mono (le_max_left v 5)).trans_eq (adcQuant_of_ge_five (le_max_right v 5))

/-- Settles O33: the quantizer rounds the exact quotient, and rounding is monotone. -/
theorem quantizerProperties : Obligations.QuantizerProperties :=
  ⟨fun _ => adcQuant_of_nonpos, fun _ => adcQuant_of_ge_five, fun _ _ => adcQuant_mono,
    fun v => (adcQuant_rounds v).near, fun v => (adcQuant_rounds v).even_of_tie⟩

/-! The two layouts. -/

/-- ADCL and ADCH for the result q, left-adjusted or right-adjusted (43_adc.md R152). -/
def adcBytes (left : Bool) (q : Nat) : Byte × Byte :=
  if left then (BitVec.ofNat 8 (q * 64), BitVec.ofNat 8 (q / 4)) else (BitVec.ofNat 8 q, BitVec.ofNat 8 (q / 256))

theorem leftBytes_eq (r : BitVec 10) : (leftLow r, leftHigh r) = adcBytes true r.toNat := by
  refine Prod.ext (BitVec.eq_of_toNat_eq ?_) (BitVec.eq_of_toNat_eq ?_)
  · simp [leftLow, adcBytes, Nat.shiftLeft_eq]
  · simp [leftHigh, adcBytes, Nat.shiftRight_eq_div_pow]

theorem rightBytes_eq (r : BitVec 10) : (rightLow r, rightHigh r) = adcBytes false r.toNat := by
  refine Prod.ext (BitVec.eq_of_toNat_eq ?_) (BitVec.eq_of_toNat_eq ?_)
  · simp [rightLow, adcBytes]
  · simp [rightHigh, adcBytes, Nat.shiftRight_eq_div_pow]

theorem adcResult_toNat (s : State) : (adcResult s).toNat = adcQuant s.ain :=
  Nat.mod_eq_of_lt (Nat.lt_succ_of_le (adcQuant_le s.ain))

/-! Stores in M. -/

theorem findCell_append (xs ys : List Host.Cell) (a : Nat) :
    findCell (xs ++ ys) a = (findCell xs a).or (findCell ys a) := by
  induction xs with
  | nil => rfl
  | cons x xs ih =>
    rw [List.cons_append, findCell_cons, findCell_cons, ih]
    split <;> rfl

/-- A store after others, at an offset not listed yet. -/
theorem State.StoresOnly.record {s t : State} {cells : List Host.Cell} (h : s.StoresOnly t cells) {a : Nat}
    (ha : findCell cells a = none) (v : Byte) : s.StoresOnly (t.record a v) (cells ++ [(a, v)]) := by
  intro b
  rw [State.byteAt_record, findCell_append, findCell_cons]
  by_cases hb : b = a
  · simp [hb, ha]
  · rw [if_neg hb, if_neg (Ne.symm hb), findCell_nil, Option.or_none, h b]

/-- A store before others that store at its offset again leaves nothing to say. -/
theorem State.StoresOnly.of_record {s t : State} {cells : List Host.Cell} {a : Nat} {v : Byte}
    (h : (s.record a v).StoresOnly t cells) (ha : (findCell cells a).isSome) : s.StoresOnly t cells := by
  intro b
  rw [h b]
  by_cases hb : b = a
  · obtain ⟨w, hw⟩ := Option.isSome_iff_exists.mp ha
    rw [hb, hw]
    rfl
  · rw [State.byteAt_record_ne _ _ hb]

/-! A conversion. -/

/-- The layout's two writes, the low byte first. -/
def State.storeResult (s : State) (x : Byte × Byte) : State := (s.record Reg.adcl x.1).record Reg.adch x.2

theorem storeResult_storesOnly (s : State) (x : Byte × Byte) :
    s.StoresOnly (s.storeResult x) [(Reg.adcl, x.1), (Reg.adch, x.2)] :=
  (storesOnly_record s Reg.adcl x.1).record rfl x.2

theorem storeResult_trace (s : State) (x : Byte × Byte) :
    (s.storeResult x).trace =
      s.trace ++ [.memChange Reg.adcl (s.byteAt Reg.adcl) x.1, .memChange Reg.adch (s.byteAt Reg.adch) x.2] := by
  simp [State.storeResult, State.byteAt_record_ne _ _ (show Reg.adch ≠ Reg.adcl by decide)]

theorem storeResult_sameBesidesMem (s : State) (x : Byte × Byte) : s.SameBesidesMem (s.storeResult x) :=
  (sameBesidesMem_record _ _ _).trans (sameBesidesMem_record _ _ _)

theorem adcStoreLeft_eq (k : Nat) (r : BitVec 10) (s : State) :
    adcStoreLeft (memWriteAt k) r s = s.storeResult (adcBytes true r.toNat) := by
  rw [adcStoreLeft_memWriteAt, ← leftBytes_eq]
  rfl

theorem adcStoreRight_eq (k : Nat) (r : BitVec 10) (s : State) :
    adcStoreRight (memWriteAt k) r s = s.storeResult (adcBytes false r.toNat) := by
  rw [adcStoreRight_memWriteAt, ← rightBytes_eq]
  rfl

/-- The bytes of one conversion of s: its input in its layout. -/
def State.adcData (s : State) : Byte × Byte := adcBytes (bitOf (s.byteAt Reg.admux) Bit.adlar) (adcQuant s.ain)

theorem adcConvert_eq (k : Nat) (s : State) :
    adcConvert (memWriteAt k) s = (s.storeResult s.adcData).record Reg.adcsra (adcDone (s.byteAt Reg.adcsra)) := by
  rw [adcConvert_memWriteAt, State.adcData, ← adcResult_toNat]
  cases bitOf (s.byteAt Reg.admux) Bit.adlar
  · rw [← rightBytes_eq]
    rfl
  · rw [← leftBytes_eq]
    rfl

theorem adcConvert_storesOnly (k : Nat) (s : State) :
    s.StoresOnly (adcConvert (memWriteAt k) s)
      [(Reg.adcl, s.adcData.1), (Reg.adch, s.adcData.2), (Reg.adcsra, adcDone (s.byteAt Reg.adcsra))] := by
  rw [adcConvert_eq]
  exact (storeResult_storesOnly s s.adcData).record rfl _

theorem adcConvert_trace (k : Nat) (s : State) :
    (adcConvert (memWriteAt k) s).trace = s.trace ++
      [.memChange Reg.adcl (s.byteAt Reg.adcl) s.adcData.1, .memChange Reg.adch (s.byteAt Reg.adch) s.adcData.2,
        .memChange Reg.adcsra (s.byteAt Reg.adcsra) (adcDone (s.byteAt Reg.adcsra))] := by
  have hcontrol : (s.storeResult s.adcData).byteAt Reg.adcsra = s.byteAt Reg.adcsra :=
    storeResult_storesOnly s _ Reg.adcsra
  simp [adcConvert_eq, storeResult_trace, hcontrol]

theorem adcConvert_sameBesidesMem (k : Nat) (s : State) : s.SameBesidesMem (adcConvert (memWriteAt k) s) := by
  rw [adcConvert_eq]
  exact (storeResult_sameBesidesMem s _).trans (sameBesidesMem_record _ _ _)

/-- A write of ADCSRA with ADSC set is its store and a conversion that finds the byte stored. -/
theorem exec_writeAdcsra_start {s : State} {v : Byte} (hs : s.Running) (hv : bitOf v Bit.adsc = true) :
    exec (.writeAdcsra v) s = .next (adcConvert (memWriteAt 2) (s.record Reg.adcsra v)) := by
  have hwrite : memWrite Reg.adcsra v s = adcConvert (memWriteAt 2) (s.record Reg.adcsra v) := by
    rw [memWrite, maxNesting, memWriteAt_adcsra, adcUpdate, State.byteAt_record_same, if_pos hv]
  exact (ifRunning_next hs).trans (congrArg _ hwrite)

/-- The store of ADCSRA changes neither the input nor the layout. -/
theorem adcData_record_adcsra (s : State) (v : Byte) : (s.record Reg.adcsra v).adcData = s.adcData := by
  rw [State.adcData, State.byteAt_record_ne _ _ (by decide)]
  rfl

/-- The conversion's last write covers the WRITE's own store. -/
theorem writeAdcsra_start_storesOnly (k : Nat) (s : State) (v : Byte) :
    s.StoresOnly (adcConvert (memWriteAt k) (s.record Reg.adcsra v))
      [(Reg.adcl, s.adcData.1), (Reg.adch, s.adcData.2), (Reg.adcsra, adcDone v)] := by
  have hstores := adcConvert_storesOnly k (s.record Reg.adcsra v)
  rw [adcData_record_adcsra, State.byteAt_record_same] at hstores
  exact hstores.of_record rfl

/-! The statements. -/

/-- Settles O34: the conversion runs on the state the WRITE's own store leaves. -/
theorem conversionStoresTheResult : Obligations.ConversionStoresTheResult := by
  intro s v hs hv
  refine ⟨_, s.adcData.1, s.adcData.2, exec_writeAdcsra_start hs hv, adcQuant_le _, fun hleft => ?_, fun hright => ?_,
    writeAdcsra_start_storesOnly 2 s v, ?_, (sameBesidesMem_record _ _ _).trans (adcConvert_sameBesidesMem 2 _)⟩
  · rw [State.adcData, hleft]
    exact ⟨rfl, rfl⟩
  · rw [State.adcData, hright]
    exact ⟨rfl, rfl⟩
  · rw [adcConvert_trace, adcData_record_adcsra, State.byteAt_record_same, State.byteAt_record_ne _ _ (by decide),
      State.byteAt_record_ne _ _ (by decide), State.record_trace, List.append_assoc]
    rfl

/-- Settles O35: with ADSC clear the WRITE is its store. -/
theorem noStartNoConversion : Obligations.NoStartNoConversion := by
  refine fun s v hs => ⟨ifRunning_next hs, fun hv => ?_⟩
  have hwrite : exec (.writeAdcsra v) s = .next (s.record Reg.adcsra v) :=
    (ifRunning_next hs).trans (congrArg _ (memWriteAt_adcsra_idle _ v s hv))
  exact ⟨_, hwrite, storesOnly_record _ _ _, rfl, sameBesidesMem_record _ _ _⟩

/-- Settles O36: where its row is selected, each command is the branch alone. -/
theorem adcCommandsStoreTheResult : Obligations.AdcCommandsStoreTheResult := by
  refine fun s hs => ⟨fun hstart => ?_, fun r x hx hlayout => ?_⟩
  · have hrun : exec .adcsraStart s = .next (adcConvert memWrite s) :=
      (ifRunning_next hs).trans (congrArg _ (if_pos hstart))
    exact ⟨_, s.adcData.1, s.adcData.2, hrun, rfl, adcConvert_storesOnly _ s, adcConvert_trace _ s,
      adcConvert_sameBesidesMem _ s⟩
  · have hrun : exec x.1 s = .next (s.storeResult x.2.2) := by
      simp only [List.mem_cons, List.not_mem_nil, or_false] at hx
      rcases hx with rfl | rfl
      · exact (ifRunning_next hs).trans (congrArg _ ((if_pos hlayout).trans (adcStoreLeft_eq _ r s)))
      · exact (ifRunning_next hs).trans
          (congrArg _ ((if_pos (congrArg not hlayout)).trans (adcStoreRight_eq _ r s)))
    exact ⟨_, hrun, storeResult_storesOnly s _, storeResult_trace s _, storeResult_sameBesidesMem s _⟩

/-- Settles O37: the three inputs are the quantizer's ends, 1023 and 0. -/
theorem adcSourceExamples : Obligations.AdcSourceExamples := by
  intro s hs
  have hbytes : ∀ left q, bitOf (s.byteAt Reg.admux) Bit.adlar = left → adcQuant s.ain = q →
      (adcConvert (memWriteAt 2) (s.record Reg.adcsra 0x40#8)).byteAt Reg.adcl = (adcBytes left q).1 ∧
        (adcConvert (memWriteAt 2) (s.record Reg.adcsra 0x40#8)).byteAt Reg.adch = (adcBytes left q).2 := by
    rintro _ _ rfl rfl
    have hstores := writeAdcsra_start_storesOnly 2 s 0x40#8
    exact ⟨hstores Reg.adcl, hstores Reg.adch⟩
  have hmax : s.ain = 5 → adcQuant s.ain = 1023 := fun h => adcQuant_of_ge_five h.ge
  have hzero : s.ain = 0 → adcQuant s.ain = 0 := fun h => adcQuant_of_nonpos h.le
  refine ⟨_, exec_writeAdcsra_start hs rfl, fun h hright => hbytes false 1023 hright (hmax h), fun h => ?_,
    fun h hleft => hbytes true 1023 hleft (hmax h)⟩
  cases hlayout : bitOf (s.byteAt Reg.admux) Bit.adlar with
  | false => exact hbytes false 0 hlayout (hzero h)
  | true => exact hbytes true 0 hlayout (hzero h)

/-- Settles O38. -/
theorem setainSetsTheInput : Obligations.SetainSetsTheInput := fun _ _ hs => ifRunning_next hs

end Sys2Proof.Machine
end

section
/-! SUPPORT. The statements about the UART (44_uart.md R170 to R175): what a sequence of plain stores and events writes,
and that a transmit and a receive are such sequences. -/

namespace Sys2Proof.Machine

/-! Stores and events in sequence. -/

/-- From s to t the listed bytes are stored and the events emitted, and nothing else changes. -/
def State.Writes (s t : State) (cells : List Host.Cell) (es : List Event) : Prop :=
  s.StoresOnly t cells ∧ t.trace = s.trace ++ es ∧ s.SameBesidesMem t

theorem writes_nothing (s : State) : s.Writes s [] [] :=
  ⟨fun _ => rfl, (List.append_nil _).symm, sameBesidesMem_refl s⟩

theorem writes_record (s : State) (a : Nat) (v : Byte) :
    s.Writes (s.record a v) [(a, v)] [.memChange a (s.byteAt a) v] :=
  ⟨storesOnly_record s a v, rfl, sameBesidesMem_record s a v⟩

section
variable {s t : State} {cells : List Host.Cell} {es : List Event} {a : Nat}

theorem State.StoresOnly.byteAt_unlisted (h : s.StoresOnly t cells) (ha : findCell cells a = none) :
    t.byteAt a = s.byteAt a := by
  rw [h a, ha, Option.getD_none]

theorem State.StoresOnly.byteAt_last {v : Byte} (h : s.StoresOnly t (cells ++ [(a, v)]))
    (ha : findCell cells a = none) : t.byteAt a = v := by
  simp [h a, findCell_append, ha]

/-- A store at the offset listed last takes its place in the list. -/
theorem State.StoresOnly.record_again {v : Byte} (h : s.StoresOnly t (cells ++ [(a, v)]))
    (ha : findCell cells a = none) (w : Byte) : s.StoresOnly (t.record a w) (cells ++ [(a, w)]) := by
  intro b
  rw [State.byteAt_record, findCell_append]
  by_cases hb : b = a
  · simp [hb, ha]
  · simp [h b, findCell_append, hb, Ne.symm hb]

theorem State.Writes.emit (h : s.Writes t cells es) (e : Event) : s.Writes (t.emit e) cells (es ++ [e]) := by
  obtain ⟨hstores, htrace, hframe⟩ := h
  exact ⟨hstores, by simp [htrace], hframe⟩

/-- A store of what f makes of the byte, at an offset not listed yet. -/
theorem State.Writes.record (h : s.Writes t cells es) (ha : findCell cells a = none) (f : Byte → Byte) :
    s.Writes (t.record a (f (t.byteAt a))) (cells ++ [(a, f (s.byteAt a))])
      (es ++ [.memChange a (s.byteAt a) (f (s.byteAt a))]) := by
  obtain ⟨hstores, htrace, hframe⟩ := h
  rw [hstores.byteAt_unlisted ha]
  refine ⟨hstores.record ha _, ?_, hframe.trans (sameBesidesMem_record t a _)⟩
  simp [htrace, hstores.byteAt_unlisted ha]

/-- A store of what f makes of the byte, at the offset listed last. -/
theorem State.Writes.record_again {v : Byte} (h : s.Writes t (cells ++ [(a, v)]) es) (ha : findCell cells a = none)
    (f : Byte → Byte) :
    s.Writes (t.record a (f (t.byteAt a))) (cells ++ [(a, f v)]) (es ++ [.memChange a v (f v)]) := by
  obtain ⟨hstores, htrace, hframe⟩ := h
  rw [hstores.byteAt_last ha]
  refine ⟨hstores.record_again ha _, ?_, hframe.trans (sameBesidesMem_record t a _)⟩
  simp [htrace, hstores.byteAt_last ha]

/-- An enabled transmit is its byte event and one store of both flags (R171). -/
theorem State.Writes.uartSend (h : s.Writes t cells es) (ha : findCell cells Reg.ucsr0a = none) (k : Nat) (b : Byte) :
    s.Writes (uartSend (memWriteAt k) b t) (cells ++ [(Reg.ucsr0a, txFlags (s.byteAt Reg.ucsr0a))])
      (es ++ [.uartTx b] ++ [.memChange Reg.ucsr0a (s.byteAt Reg.ucsr0a) (txFlags (s.byteAt Reg.ucsr0a))]) := by
  rw [uartSend_memWriteAt]
  exact (h.emit (.uartTx b)).record ha txFlags

end

/-! A write of UDR0 and a receive. -/

theorem memWrite_udr0_writes_txen {s : State} (b : Byte) (h : bitOf (s.byteAt Reg.ucsr0b) Bit.txen = true) :
    s.Writes (memWrite Reg.udr0 b s) [(Reg.udr0, b), (Reg.ucsr0a, txFlags (s.byteAt Reg.ucsr0a))]
      [.memChange Reg.udr0 (s.byteAt Reg.udr0) b, .uartTx b,
        .memChange Reg.ucsr0a (s.byteAt Reg.ucsr0a) (txFlags (s.byteAt Reg.ucsr0a))] := by
  rw [memWrite, maxNesting, memWriteAt_udr0, uartTransmit, State.byteAt_record_ne _ _ (by decide), if_pos h]
  exact (writes_record s Reg.udr0 b).uartSend rfl 2 b

theorem memWrite_udr0_writes_txoff {s : State} (b : Byte) (h : bitOf (s.byteAt Reg.ucsr0b) Bit.txen = false) :
    s.Writes (memWrite Reg.udr0 b s) [(Reg.udr0, b)] [.memChange Reg.udr0 (s.byteAt Reg.udr0) b] := by
  rw [memWrite, maxNesting, memWriteAt_udr0, uartTransmit, State.byteAt_record_ne _ _ (by decide), h]
  exact writes_record s Reg.udr0 b

/-- UCSR0A selects no update, so RXC is set by a plain store. -/
theorem uartAccept_eq (b : Byte) (s : State) :
    uartAccept memWrite b s = (memWrite Reg.udr0 b s).record Reg.ucsr0a
      (withBit ((memWrite Reg.udr0 b s).byteAt Reg.ucsr0a) Bit.rxc) :=
  memWriteAt_plain _ _ _ (by decide) (by decide)

theorem exec_receive {s : State} {b : Byte} {i : Instr} (hs : s.Running)
    (hrxen : bitOf (s.byteAt Reg.ucsr0b) Bit.rxen = true) (hi : i ∈ [Instr.rxinj b, .ucsr0bRxen b]) :
    exec i s = .next (uartAccept memWrite b s) := by
  simp only [List.mem_cons, List.not_mem_nil, or_false] at hi
  rcases hi with rfl | rfl <;> exact (ifRunning_next hs).trans (congrArg _ (if_pos hrxen))

/-! The statements. -/

/-- Settles O39: the WRITE is its store, followed by a transmit where TXEN is set. -/
theorem transmitNeedsTxen : Obligations.TransmitNeedsTxen := fun _ d hs =>
  ⟨fun htxen => ⟨_, ifRunning_next hs, memWrite_udr0_writes_txen d htxen⟩,
    fun htxen => ⟨_, ifRunning_next hs, memWrite_udr0_writes_txoff d htxen⟩⟩

/-- Settles O40: the transmit branch is the transmit alone, with no store of UDR0. -/
theorem transmitCommands : Obligations.TransmitCommands := fun s b hs =>
  ⟨ifRunning_next hs, fun htxen =>
    ⟨_, (ifRunning_next hs).trans (congrArg _ (if_pos htxen)), (writes_nothing s).uartSend rfl maxNesting b⟩⟩

/-- Settles O41: RXC is set after the write of UDR0, in the byte that a transmit's flag write, if any, has left. -/
theorem receiveStoresAndEchoes : Obligations.ReceiveStoresAndEchoes := by
  intro s b hs hrxen i hi
  have hrun := exec_receive hs hrxen hi
  rw [uartAccept_eq] at hrun
  refine ⟨fun htxen => ⟨_, hrun, ?_⟩, fun htxen => ⟨_, _, hrun, rfl, ?_⟩⟩
  · exact (memWrite_udr0_writes_txoff b htxen).record rfl (withBit · Bit.rxc)
  · exact (memWrite_udr0_writes_txen b htxen).record_again (cells := [(Reg.udr0, b)]) rfl (withBit · Bit.rxc)

/-- Settles O42: the branch not taken leaves the state as it was. -/
theorem receiveDroppedWithoutRxen : Obligations.ReceiveDroppedWithoutRxen := by
  refine fun s b hs => ⟨ifRunning_next hs, fun hrxen => ?_⟩
  have hdropped : uartReceive memWrite b s = s := by rw [uartReceive, hrxen]; rfl
  exact (ifRunning_next hs).trans (congrArg _ hdropped)

end Sys2Proof.Machine
end

section
/-! SUPPORT. The statements about GPIO (45_gpio.md R190 to R196): a pin's mask reads one bit of a byte, and a WRITE of
PINp or PORTp writes its byte and emits the port's fan-out. -/

namespace Sys2Proof.Machine

/-- A pin's mask reads the pin's bit (R190, R194); no bit for a mask shifted out of the byte. -/
theorem bitIn_mask (v : Byte) (k : Nat) : bitIn v (Bit.mask k) = v.getLsbD k := by
  have hmask : v &&& Bit.mask k = if v.getLsbD k then Bit.mask k else 0#8 := BitVec.and_twoPow v k
  rw [bitIn, hmask]
  cases hbit : v.getLsbD k with
  | false => rfl
  | true =>
    have hk : k < 8 := BitVec.lt_of_getLsbD hbit
    have hself : bitOf (Bit.mask k) k = true := (bitOf_mask hk).trans (decide_eq_true rfl)
    refine bne_iff_ne.mpr fun hzero : Bit.mask k = 0#8 => ?_
    simp [hzero, bitOf] at hself

/-! The fan-out. -/

/-- The events of one fan-out, in their order (R191; decision D18). -/
def fanoutEvents (p : Port) (old new : Byte) : List Event :=
  .portChange p old new :: if old = new then [] else pinEvents p old new

theorem portFanout_eq (p : Port) (old new : Byte) (s : State) :
    portFanout p old new s = s.emitAll (fanoutEvents p old new) := by
  unfold portFanout fanoutEvents
  by_cases h : old = new <;> simp [h, State.emit, State.emitAll]

theorem pinEvents_eq (p : Port) (old new : Byte) :
    pinEvents p old new = (List.range (pinCount p)).map fun k =>
      .pinChange p (1#8 <<< k) (old.getLsbD k) (new.getLsbD k) := by
  simp only [pinEvents, pinMasks, List.map_map, Function.comp_def, bitIn_mask]
  rfl

theorem fanoutEvents_hostVisible {p : Port} {old new : Byte} {e : Event} (he : e ∈ fanoutEvents p old new) :
    e.hostVisible = true := by
  rcases List.mem_cons.mp he with rfl | he
  · rfl
  · split at he
    · cases he
    · obtain ⟨_, _, rfl⟩ := List.mem_map.mp he
      rfl

theorem State.Writes.emitAll {s t : State} {cells : List Host.Cell} {es : List Event} (h : s.Writes t cells es)
    (fs : List Event) : s.Writes (t.emitAll fs) cells (es ++ fs) := by
  obtain ⟨hstores, htrace, hframe⟩ := h
  exact ⟨hstores, by simp [htrace], hframe⟩

theorem memWrite_port_writes {p : Port} {a : Nat} (ha : a = pinOf p ∨ a = portOf p) (d : Byte) (s : State) :
    s.Writes (memWrite a d s) [(a, d)] (.memChange a (s.byteAt a) d :: fanoutEvents p (s.byteAt a) d) := by
  rw [memWrite, maxNesting, memWriteAt_port 2 p d s ha, portFanout_eq]
  exact (writes_record s a d).emitAll _

theorem memWrite_port_hostVisible {p : Port} {a : Nat} (ha : a = pinOf p ∨ a = portOf p) (d : Byte) (s : State) :
    (memWrite a d s).trace.filter Event.hostVisible =
      s.trace.filter Event.hostVisible ++ fanoutEvents p (s.byteAt a) d := by
  obtain ⟨-, htrace, -⟩ := memWrite_port_writes ha d s
  rw [htrace, List.filter_append, List.filter_cons_of_neg (by simp [Event.hostVisible]),
    List.filter_eq_self.mpr fun _ he => fanoutEvents_hostVisible he]

/-! Setting one bit of a byte. -/

theorem bitOf_withBit_same (v : Byte) {i : Nat} (hi : i < 8) : bitOf (withBit v i) i = true := by
  simp [bitOf_withBit v i hi]

theorem withBit_ne_self {v : Byte} {i : Nat} (hi : i < 8) (hv : bitOf v i = false) : v ≠ withBit v i := by
  intro h
  have hset := bitOf_withBit_same v hi
  rw [← h, hv] at hset
  cases hset

/-- Under the mask of any other bit the byte reads as before. -/
theorem bitIn_withBit_other (v : Byte) {i k : Nat} (hk : k < 8) (hik : i ≠ k) :
    bitIn (withBit v i) (Bit.mask k) = bitIn v (Bit.mask k) := by
  have hbit := bitOf_withBit v i hk
  rw [decide_eq_false hik, Bool.or_false] at hbit
  rw [bitIn_mask, bitIn_mask]
  exact hbit

/-- What one fan-out says of each pin: its mask, its old and its new bit (R192). -/
def pinBits (p : Port) (old new : Byte) : List (Byte × Bool × Bool) :=
  (pinMasks p).map fun mask => (mask, bitIn old mask, bitIn new mask)

theorem pinEvents_eq_pinBits (p : Port) (old new : Byte) :
    pinEvents p old new = (pinBits p old new).map fun x => .pinChange p x.1 x.2.1 x.2.2 := by
  simp [pinEvents, pinBits, Function.comp_def]

theorem pinBits_masks (p : Port) (old new : Byte) : (pinBits p old new).map (·.1) = pinMasks p := by
  simp [pinBits, Function.comp_def]

theorem pinBits_withBit {p : Port} {v : Byte} {i : Nat} (hi : i < 8) (hv : bitOf v i = false)
    {x : Byte × Bool × Bool} (hx : x ∈ pinBits p v (withBit v i)) :
    (x.1 = Bit.mask i → x.2 = (false, true)) ∧ (x.1 ≠ Bit.mask i → x.2.1 = x.2.2) := by
  obtain ⟨_, hmask, rfl⟩ := List.mem_map.mp hx
  obtain ⟨k, hk, rfl⟩ := List.mem_map.mp hmask
  refine ⟨fun h : Bit.mask k = Bit.mask i => ?_, fun h : Bit.mask k ≠ Bit.mask i => ?_⟩
  · rw [h, bitIn_mask, bitIn_mask]
    exact Prod.ext hv (bitOf_withBit_same v hi)
  · have hk8 : k < 8 := (List.mem_range.mp hk).trans_le (by cases p <;> decide)
    exact (bitIn_withBit_other v hk8 fun h' => h (h' ▸ rfl)).symm

/-! The statements. -/

/-- Settles O43: each row is the one MemWrite at its register, whose port's fan-out follows the store. -/
theorem portWriteFansOut : Obligations.PortWriteFansOut := by
  intro s d hs x hx
  obtain ⟨hexec, hreg, hpins⟩ : exec x.1 s = ifRunning s (memWrite x.2.2.1 d s) ∧
      (x.2.2.1 = pinOf x.2.1 ∨ x.2.2.1 = portOf x.2.1) ∧ x.2.2.2 = pinCount x.2.1 := by
    simp only [List.mem_cons, List.not_mem_nil, or_false] at hx
    rcases hx with rfl | rfl | rfl | rfl | rfl | rfl
    exacts [⟨rfl, .inl rfl, rfl⟩, ⟨rfl, .inr rfl, rfl⟩, ⟨rfl, .inl rfl, rfl⟩, ⟨rfl, .inr rfl, rfl⟩,
      ⟨rfl, .inl rfl, rfl⟩, ⟨rfl, .inr rfl, rfl⟩]
  obtain ⟨hstores, htrace, hframe⟩ := memWrite_port_writes hreg d s
  refine ⟨_, hexec.trans (ifRunning_next hs), hstores, ?_, hframe⟩
  rw [htrace, fanoutEvents, pinEvents_eq, hpins, List.append_assoc]
  rfl

/-- Settles O44: the fan-out of a byte that gains bit 5. -/
theorem togglingPb5RaisesNineEvents : Obligations.TogglingPb5RaisesNineEvents := by
  intro s hs hclear
  have hevents : fanoutEvents .B (s.byteAt Reg.portb) (withBit (s.byteAt Reg.portb) 5) =
      .portChange .B (s.byteAt Reg.portb) (withBit (s.byteAt Reg.portb) 5) ::
        (pinBits .B (s.byteAt Reg.portb) (withBit (s.byteAt Reg.portb) 5)).map fun x =>
          .pinChange .B x.1 x.2.1 x.2.2 := by
    rw [fanoutEvents, if_neg (withBit_ne_self (by decide) hclear), pinEvents_eq_pinBits]
  exact ⟨_, _, pinBits .B (s.byteAt Reg.portb) (withBit (s.byteAt Reg.portb) 5), ifRunning_next hs,
    memWrite_port_hostVisible (p := .B) (.inr rfl) _ s, .of_eq hevents, rfl, .of_eq (pinBits_masks _ _ _),
    fun _ hx => pinBits_withBit (by decide) hclear hx⟩

/-- Settles O45: each view reads its register under the pin's mask. -/
theorem pinViewsAreRegisterBits : Obligations.PinViewsAreRegisterBits := by
  intro s k _ x hx
  simp only [List.mem_cons, List.not_mem_nil, or_false] at hx
  rcases hx with rfl | rfl | rfl <;> exact ⟨bitIn_mask _ k, bitIn_mask _ k, bitIn_mask _ k⟩

end Sys2Proof.Machine
end

section
/-! SUPPORT. The statements about the fault (60_exceptions.md R210 to R216): an access outside the buffer records its
offset, and no update sets the mark. -/

namespace Sys2Proof.Machine

/-! An access outside the buffer. -/

theorem exec_read_outOfBounds {s : State} {a : Nat} (hs : s.Running) (ha : Param.memSize ≤ a) :
    exec (.read a) s = .next (s.raiseOutOfBounds a) :=
  (ifRunning_next hs).trans (congrArg _ (if_pos ha))

theorem exec_write_outOfBounds {s : State} {a : Nat} (d : Byte) (hs : s.Running) (ha : Param.memSize ≤ a) :
    exec (.write a d) s = .next (s.raiseOutOfBounds a) :=
  (ifRunning_next hs).trans (congrArg _ (memWriteAt_outOfBounds _ d s ha))

/-- Settles O46: both test the bound before anything else. -/
theorem outOfBoundsIsRecorded : Obligations.OutOfBoundsIsRecorded := fun _ _ d hs ha =>
  ⟨exec_read_outOfBounds hs ha, exec_write_outOfBounds d hs ha⟩

/-! Nothing else sets the mark: a write inside the buffer leaves it empty, and so does every update, whose own writes
are all inside the buffer. -/

section
variable {s : State}

theorem State.SameBesidesMem.running {t : State} (h : s.SameBesidesMem t) (hs : s.Running) : t.Running := by
  obtain ⟨-, -, -, -, hfault, -⟩ := h
  exact hfault.trans hs

theorem State.Running.guarded {t : State} {c : Bool} (hs : s.Running) (ht : t.Running) :
    (if c then t else s).Running := by
  cases c
  · exact hs
  · exact ht

theorem portFanout_running (p : Port) (old new : Byte) (hs : s.Running) : (portFanout p old new s).Running := by
  unfold portFanout
  split <;> exact hs

theorem uartSend_running (k : Nat) (b : Byte) (hs : s.Running) : (uartSend (memWriteAt k) b s).Running := by
  rw [uartSend_memWriteAt]
  exact hs

theorem memWrite_eecr_running (v : Byte) (hs : s.Running) : (memWrite Reg.eecr v s).Running := by
  obtain ⟨-, -, -, hfault, -⟩ := (memWrite_eecr_updated v s).frame
  exact hfault.trans hs

/-- A write inside the buffer is its store and the update its offset selects, neither of which sets the mark. -/
theorem memWrite_running {a : Nat} (v : Byte) (ha : a < Param.memSize) (hs : s.Running) :
    (memWrite a v s).Running := by
  have stored : (s.record a v).Running := hs
  unfold memWrite maxNesting
  by_cases hd : a ∈ Reg.dispatching
  · obtain ⟨p, hp⟩ | rfl | rfl | rfl | rfl := dispatching_cases hd
    · rw [memWriteAt_port 2 p v s hp]
      exact portFanout_running p _ v stored
    · rw [memWriteAt_adcsra]
      exact stored.guarded ((adcConvert_sameBesidesMem 2 _).running stored)
    · exact memWrite_eecr_running v hs
    · rw [memWriteAt_dac]
      exact stored
    · rw [memWriteAt_udr0]
      exact stored.guarded (uartSend_running 2 v stored)
  · rw [memWriteAt_plain 3 v s ha hd]
    exact stored

theorem clockBranch_running (cs n : Nat) (hs : s.Running) : (clockBranch cs n s).Running := by
  by_cases h : clockSelect s = cs
  · rw [← h, clockBranch_clockSelect]
    exact timerStep_running n hs
  · rw [clockBranch, if_neg h]
    exact hs

theorem uartAccept_running (b : Byte) (hs : s.Running) : (uartAccept memWrite b s).Running :=
  memWrite_running _ (by decide) (memWrite_running b (by decide) hs)

theorem adcStoreLeft_running (r : BitVec 10) (hs : s.Running) : (adcStoreLeft memWrite r s).Running :=
  memWrite_running _ (by decide) (memWrite_running _ (by decide) hs)

theorem adcStoreRight_running (r : BitVec 10) (hs : s.Running) : (adcStoreRight memWrite r s).Running :=
  memWrite_running _ (by decide) (memWrite_running _ (by decide) hs)

theorem eepromWrite_running (addr : Nat) (hs : s.Running) : (eepromWrite memWrite addr s).Running :=
  memWrite_eecr_running _ (s := s.eeStore addr _) hs

/-- An instruction whose access, if it is a READ or a WRITE, is inside the buffer leaves the mark empty (R211). -/
theorem exec_running {i : Instr} (hs : s.Running)
    (hin : ∀ a, (i = .read a ∨ ∃ d, i = .write a d) → a < Param.memSize) :
    ∃ t, exec i s = .next t ∧ t.Running := by
  cases i <;> refine ⟨_, ifRunning_next hs, ?_⟩
  case read a =>
    rw [readByte, if_neg (Nat.not_le.mpr (hin a (.inl rfl)))]
    exact hs
  case write a d => exact memWrite_running d (hin a (.inr ⟨d, rfl⟩)) hs
  case writePinb d | writePortb d | writePinc d | writePortc d | writePind d | writePortd d | writeAdcsra d
    | writeEecr d | writeDac d | writeUdr0 d => exact memWrite_running d (by decide) hs
  case step n => exact timerStep_running n hs
  case tccr0bCs0 n | tccr0bCs1 n | tccr0bCs2 n | tccr0bCs3 n | tccr0bCs4 n | tccr0bCs5 n | tccr0bCs6 n | tccr0bCs7 n =>
    exact clockBranch_running _ n hs
  case rxinj b | ucsr0bRxen b => exact hs.guarded (uartAccept_running b hs)
  case ucsr0bTxen b => exact hs.guarded (uartSend_running _ b hs)
  case eecrRead => exact hs.guarded (eepromRead_running _ hs)
  case eecrWrite => exact hs.guarded (eepromWrite_running _ hs)
  case eecrWriteDropped => exact hs.guarded (memWrite_eecr_running _ hs)
  case adcsraStart => exact hs.guarded ((adcConvert_sameBesidesMem _ s).running hs)
  case admuxLeft r => exact hs.guarded (adcStoreLeft_running r hs)
  case admuxRight r => exact hs.guarded (adcStoreRight_running r hs)
  case setain v | dacout | eecrGateOnly | adcsraNostart | ucsr0bTxoff b | ucsr0bRxoff b => exact hs

end

/-- Settles O48: an instruction reads or writes outside the buffer, which records its offset, or it leaves the mark
empty. -/
theorem nothingElseFaults : Obligations.NothingElseFaults := by
  intro i s hs
  by_cases hout : ∃ a, Param.memSize ≤ a ∧ (i = .read a ∨ ∃ d, i = .write a d)
  · obtain ⟨a, ha, haccess⟩ := hout
    have hrecorded : exec i s = .next (s.raiseOutOfBounds a) := by
      obtain rfl | ⟨d, rfl⟩ := haccess
      · exact exec_read_outOfBounds hs ha
      · exact exec_write_outOfBounds d hs ha
    exact ⟨_, hrecorded, .inr ⟨a, ha, rfl, haccess⟩⟩
  · obtain ⟨t, hexec, ht⟩ := exec_running hs fun a haccess => Nat.lt_of_not_le fun ha => hout ⟨a, ha, haccess⟩
    exact ⟨t, hexec, .inl ht⟩

end Sys2Proof.Machine
end

section
/-! SUPPORT. The statements about construction and the hazard of two halves (70_reset_and_hazards.md R240, R241, R252):
what a laid buffer holds, and what a receive leaves for the WRITE that ends a SETB or CLRB. -/

namespace Sys2Proof.Machine

/-! A preinit buffer. -/

theorem findCell_layBuffer (bs : List Byte) (k j : Nat) : findCell (layBuffer k bs) (k + j) = bs[j]? := by
  induction bs generalizing k j with
  | nil => rfl
  | cons b bs ih =>
    rw [layBuffer, findCell_cons]
    cases j with
    | zero => exact if_pos rfl
    | succ j => rw [if_neg (by omega), show k + (j + 1) = k + 1 + j by omega, ih, List.getElem?_cons_succ]

theorem rising_layBuffer {bs : List Byte} {k hi : Nat} (h : k + bs.length ≤ hi) :
    rising k hi (layBuffer k bs) = true := by
  induction bs generalizing k with
  | nil => rfl
  | cons b bs ih =>
    rw [List.length_cons] at h
    have hrest : rising (k + 1) hi (layBuffer (k + 1) bs) = true := ih (by omega)
    simp [layBuffer, rising, hrest, show k < hi by omega]

theorem construct_tooLong {pre : List Byte} (h : Param.eeSize < pre.length) :
    construct pre = .error (.preinitTooLong pre.length) := by
  rw [construct, eepromInit, if_neg (by decide), if_pos h]
  rfl

theorem construct_fits {pre : List Byte} (h : pre.length ≤ Param.eeSize) :
    construct pre = .ok { State.reset with eeprom := layBuffer 0 pre } := by
  rw [construct, eepromInit, if_neg (by decide), if_neg (Nat.not_lt.mpr h)]
  rfl

theorem eeRead_layBuffer (pre : List Byte) (a : Nat) :
    eeRead (layBuffer 0 pre) a = if h : a < pre.length then pre[a] else Config.eeInit a := by
  have hcell := findCell_layBuffer pre 0 a
  rw [Nat.zero_add] at hcell
  rw [eeRead, hcell]
  split
  case isTrue h => rw [List.getElem?_eq_getElem h, Option.getD_some]
  case isFalse h => rw [List.getElem?_eq_none (Nat.not_lt.mp h), Option.getD_none]

/-- Settles O52: the image is the buffer laid from address 0 on, and the other fields are those of reset. -/
theorem constructionTakesThePreinitBuffer : Obligations.ConstructionTakesThePreinitBuffer :=
  ⟨fun _ hlong => construct_tooLong hlong, fun pre hfits =>
    ⟨_, construct_fits hfits, rfl, rising_layBuffer (by rwa [Nat.zero_add]), eeRead_layBuffer pre⟩⟩

/-! A receive leaves its byte and its flags. -/

theorem uartAccept_udr0 (b : Byte) (s : State) : (uartAccept memWrite b s).byteAt Reg.udr0 = b := by
  rw [uartAccept_eq, State.byteAt_record_ne _ _ (by decide)]
  exact memWrite_byteAt_same s (by decide) (fun h => absurd h (by decide)) fun h => absurd h (by decide)

theorem uartAccept_ucsr0a (b : Byte) (s : State) :
    (uartAccept memWrite b s).byteAt Reg.ucsr0a = withBit ((memWrite Reg.udr0 b s).byteAt Reg.ucsr0a) Bit.rxc := by
  rw [uartAccept_eq, State.byteAt_record_same]

theorem uartAccept_rxc (b : Byte) (s : State) : bitOf ((uartAccept memWrite b s).byteAt Reg.ucsr0a) Bit.rxc = true := by
  rw [uartAccept_ucsr0a, bitOf_withBit_same _ (by decide)]

/-- A WRITE of UDR0 sets both transmit flags or stores nothing in UCSR0A. -/
theorem memWrite_udr0_ucsr0a (b : Byte) (s : State) :
    (memWrite Reg.udr0 b s).byteAt Reg.ucsr0a =
      if bitOf (s.byteAt Reg.ucsr0b) Bit.txen then txFlags (s.byteAt Reg.ucsr0a) else s.byteAt Reg.ucsr0a := by
  split
  case isTrue htxen => exact (memWrite_udr0_writes_txen b htxen).1 Reg.ucsr0a
  case isFalse htxen => exact (memWrite_udr0_writes_txoff b (Bool.eq_false_iff.mpr htxen)).1 Reg.ucsr0a

theorem uartAccept_txFlag {s : State} (b : Byte) {f : Nat} (hf : f ∈ [Bit.txc, Bit.udre])
    (htxen : bitOf (s.byteAt Reg.ucsr0b) Bit.txen = true) :
    bitOf ((uartAccept memWrite b s).byteAt Reg.ucsr0a) f = true := by
  rw [uartAccept_ucsr0a, memWrite_udr0_ucsr0a, if_pos htxen]
  obtain rfl | rfl := List.mem_pair.mp hf <;> rw [bitOf_withBit _ _ (by decide), bitOf_txFlags _ (by decide)] <;> simp

/-- No flag is lost by a WRITE of UDR0. -/
theorem memWrite_udr0_keeps_flag {s : State} (b : Byte) {f : Nat} (hf : f < 8)
    (h : bitOf (s.byteAt Reg.ucsr0a) f = true) : bitOf ((memWrite Reg.udr0 b s).byteAt Reg.ucsr0a) f = true := by
  rw [memWrite_udr0_ucsr0a]
  split
  · rw [bitOf_txFlags _ hf, h]
    rfl
  · exact h

/-! The second half of SETB or CLRB after a READ that returned v. -/

/-- Either second half with the byte its WRITE stores. -/
def secondHalves (a : Nat) (i : Fin 8) (v : Byte) : List (Request × Byte) :=
  [(.setBack a i, withBit v i), (.clearBack a i, withoutBit v i)]

section
variable {a : Nat} {i : Fin 8} {v : Byte} {x : Request × Byte}

theorem resolve_secondHalf {t : State} {xs : List Answer} (hx : x ∈ secondHalves a i v)
    (ht : t.answers = xs ++ [.read a v]) : resolve t x.1 = .ok (writeAt a x.2) := by
  obtain rfl | rfl := List.mem_pair.mp hx
  · exact writeBack_read (withBit · i) ht
  · exact writeBack_read (withoutBit · i) ht

theorem bitOf_secondHalf_other (hx : x ∈ secondHalves a i v) {f : Nat} (hf : f < 8) (hi : i.val ≠ f) :
    bitOf x.2 f = bitOf v f := by
  obtain rfl | rfl := List.mem_pair.mp hx
  · simp [bitOf_withBit _ _ hf, hi]
  · simp [bitOf_withoutBit _ _ hf, hi]

end

/-- A READ, an enabled receive and a second half, as one write of what the second half stores. -/
theorem receive_between_halves {s s1 s2 s3 : State} {b : Byte} {a : Nat} {i : Fin 8} {w : Instr} {x : Request × Byte}
    (hrxen : bitOf (s.byteAt Reg.ucsr0b) Bit.rxen = true) (ha : a < Param.memSize)
    (hread : exec (.read a) s = .next s1) (hreceive : exec (.rxinj b) s1 = .next s2)
    (hx : x ∈ secondHalves a i (s.byteAt a)) (hw : resolve s2 x.1 = .ok w) (hwrite : exec w s2 = .next s3) :
    s2 = uartAccept memWrite b (s.answer (.read a (s.byteAt a))) ∧ s3 = memWrite a x.2 s2 := by
  obtain ⟨hs, -⟩ := exec_effects hread
  rw [exec_read hs ha] at hread
  cases hread
  have hanswers : s2.answers = s.answers ++ [.read a (s.byteAt a)] :=
    (exec_answers hreceive).resolve_right (by rintro (⟨c, hc⟩ | hc) <;> cases hc)
  rw [exec_receive (s := s.answer _) hs hrxen List.mem_cons_self] at hreceive
  rw [resolve_secondHalf hx hanswers] at hw
  cases hw
  rw [exec_writeAt] at hwrite
  obtain ⟨-, hs3⟩ := ifRunning_eq_next hwrite
  cases hreceive
  exact ⟨rfl, hs3⟩

/-- Settles O9: the WRITE stores what the READ returned but for the executor's bit, over what the receive has left at
that offset; at the other register of the receive it loses nothing. -/
theorem receiveBetweenHalvesLosesItsFlag : Obligations.ReceiveBetweenHalvesLosesItsFlag := by
  intro s s1 s2 s3 b a i w hrxen ha hread hreceive x hx hw hwrite
  have hplace : a < Param.memSize ∧ a ≠ Reg.eecr ∧ a ≠ Reg.adcsra := by
    obtain rfl | rfl := List.mem_pair.mp ha <;> decide
  obtain ⟨hsize, heecr, hadc⟩ := hplace
  obtain ⟨hs2, hs3⟩ := receive_between_halves hrxen hsize hread hreceive hx hw hwrite
  have hrxc : bitOf (s2.byteAt Reg.ucsr0a) Bit.rxc = true := by rw [hs2, uartAccept_rxc]
  have hudr0 : s2.byteAt Reg.udr0 = b := by rw [hs2, uartAccept_udr0]
  have hstored : s3.byteAt a = x.2 := by
    rw [hs3]
    exact memWrite_byteAt_same s2 hsize (absurd · heecr) (absurd · hadc)
  refine ⟨hrxc, hudr0, fun htxen => ?_, hstored, fun hucsr0a => ⟨?_, fun f hf hi => ?_⟩, fun hdata => ?_⟩
  · rw [hs2]
    exact ⟨uartAccept_txFlag b (by decide) htxen, uartAccept_txFlag b (by decide) htxen⟩
  · subst hucsr0a
    rw [hs3, memWrite, memWriteAt_plain _ _ _ hsize (by decide), State.byteAt_record_ne _ _ (by decide), hudr0]
  · subst hucsr0a
    have flags_lt : ∀ f ∈ [Bit.rxc, Bit.txc, Bit.udre], f < 8 := by decide
    rw [hstored, bitOf_secondHalf_other hx (flags_lt f hf) hi]
  · subst hdata
    rw [hs3]
    exact memWrite_udr0_keeps_flag x.2 (by decide) hrxc

end Sys2Proof.Machine
end
